-- ==== Sys2Proof/Word.lean ====
section
/-! DEFINITION. The machine's word types (00_scope.md R8, R9): every register, stack byte and operand byte is one
8-bit value, an instruction is one 32-bit word, and arithmetic goes through a 16-bit intermediate (R7, R125). -/

namespace Sys2Proof

/-- A register, a stack byte, an operand byte, a code-image byte (R9). -/
abbrev Byte := BitVec 8

/-- One instruction word (R70). -/
abbrev Word := BitVec 32

/-- The 16-bit intermediate of ADD, SUB and MUL (41_move_arith.md R125). -/
abbrev Wide := BitVec 16

end Sys2Proof
end

