-- ==== Sys2Proof/Syntax.lean ====
section
/-! DEFINITION. The instruction set as data: the four addressing modes (30_encoding.md R73), the nine registers
(10_state.md R20), the eleven opcodes (R78) and the decoded instruction, one constructor per row of
spec/opcode_table.json, each holding the decoder's outputs `mode`, `a`, `b` whole (R76). -/

namespace Sys2Proof

/-- The 2-bit addressing mode, all four values assigned (R73). -/
inductive Mode where
  | regReg | regVal | regOnly | valOnly
  deriving DecidableEq, Repr

/-- The nine registers (R20). -/
inductive Reg where
  | r0 | r1 | r2 | pc | sp | bp | zf | cf | of
  deriving DecidableEq, Repr

/-- The eleven opcodes, in the order of the table (R78). -/
inductive Opcode where
  | mov | add | sub | mul | cmp | push | pop | jmp | be | bne | print
  deriving DecidableEq, Repr

/-- A decoded instruction `Known(op, mode, a, b)` (R38, R76). The decoder does not check the mode against the opcode,
so every mode stands in every constructor and the mode check is the machine's (R104). -/
inductive Instr where
  | mov   (mode : Mode) (a b : Byte)
  | add   (mode : Mode) (a b : Byte)
  | sub   (mode : Mode) (a b : Byte)
  | mul   (mode : Mode) (a b : Byte)
  | cmp   (mode : Mode) (a b : Byte)
  | push  (mode : Mode) (a b : Byte)
  | pop   (mode : Mode) (a b : Byte)
  | jmp   (mode : Mode) (a b : Byte)
  | be    (mode : Mode) (a b : Byte)
  | bne   (mode : Mode) (a b : Byte)
  | print (mode : Mode) (a b : Byte)
  deriving DecidableEq, Repr

/-- All registers, in the order of R20. -/
def Reg.all : List Reg := [.r0, .r1, .r2, .pc, .sp, .bp, .zf, .cf, .of]

/-- All opcodes, in the order of R78. -/
def Opcode.all : List Opcode := [.mov, .add, .sub, .mul, .cmp, .push, .pop, .jmp, .be, .bne, .print]

/-- All modes, in the order of R73. -/
def Mode.all : List Mode := [.regReg, .regVal, .regOnly, .valOnly]

/-- The opcode's name, as the diagnostic carries it (R40, R202). -/
def Opcode.mnemonic : Opcode → String
  | .mov => "MOV" | .add => "ADD" | .sub => "SUB" | .mul => "MUL" | .cmp => "CMP" | .push => "PUSH"
  | .pop => "POP" | .jmp => "JMP" | .be => "BE" | .bne => "BNE" | .print => "PRINT"

/-- The opcode of an instruction. -/
def Instr.op : Instr → Opcode
  | .mov _ _ _ => .mov | .add _ _ _ => .add | .sub _ _ _ => .sub | .mul _ _ _ => .mul | .cmp _ _ _ => .cmp
  | .push _ _ _ => .push | .pop _ _ _ => .pop | .jmp _ _ _ => .jmp | .be _ _ _ => .be | .bne _ _ _ => .bne
  | .print _ _ _ => .print

/-- The addressing mode of an instruction. -/
def Instr.mode : Instr → Mode
  | .mov m _ _ | .add m _ _ | .sub m _ _ | .mul m _ _ | .cmp m _ _ | .push m _ _ | .pop m _ _ | .jmp m _ _
  | .be m _ _ | .bne m _ _ | .print m _ _ => m

/-- Operand A ("src"), bits 15:8 of the word (R71). -/
def Instr.a : Instr → Byte
  | .mov _ a _ | .add _ a _ | .sub _ a _ | .mul _ a _ | .cmp _ a _ | .push _ a _ | .pop _ a _ | .jmp _ a _
  | .be _ a _ | .bne _ a _ | .print _ a _ => a

/-- Operand B ("dest"), bits 7:0 of the word (R71). -/
def Instr.b : Instr → Byte
  | .mov _ _ b | .add _ _ b | .sub _ _ b | .mul _ _ b | .cmp _ _ b | .push _ _ b | .pop _ _ b | .jmp _ _ b
  | .be _ _ b | .bne _ _ b | .print _ _ b => b

/-- The instruction of an opcode and the three other decoder outputs. -/
def Instr.build (op : Opcode) (m : Mode) (a b : Byte) : Instr :=
  match op with
  | .mov => .mov m a b | .add => .add m a b | .sub => .sub m a b | .mul => .mul m a b | .cmp => .cmp m a b
  | .push => .push m a b | .pop => .pop m a b | .jmp => .jmp m a b | .be => .be m a b | .bne => .bne m a b
  | .print => .print m a b

/-- What the decoder answers for a word: one of the eleven opcodes' instructions, or the verdict "unknown opcode" with
the raw 6-bit field (R76). -/
inductive Decoded where
  | known   (i : Instr)
  | unknown (opc : BitVec 6)
  deriving DecidableEq, Repr

/-- The decoder block's output signals (R76): `op` is valid when `known`, the raw fields always. -/
structure DecoderPorts where
  known  : Bool
  op     : Option Opcode
  opcode : BitVec 6
  mode   : BitVec 2
  a      : Byte
  b      : Byte
  deriving DecidableEq, Repr

/-- Why a byte sequence yields no instruction: its opcode is unknown (R80), or it is shorter than one word. -/
inductive DecodeReject where
  | unknownOpcode (opc : BitVec 6)
  | truncated (length : Nat)
  deriving DecidableEq, Repr

end Sys2Proof
end

