-- ==== Sys2Proof/Config.lean ====
section
/-! DEFINITION. The implementation parameters of 00_scope.md R7 as one record, and the free values the spec leaves
arbitrary. The values this model runs with stand in Machine/Params.lean; CODE_LEN is the length of the image in State. -/

namespace Sys2Proof

/-- `BAD_REG_POLICY` (10_state.md R22, 92 D3): what an out-of-range register identifier does. -/
inductive BadRegPolicy where
  | ignore  -- a read gives 0, a write changes nothing
  | fault   -- the run ends in ABORT_MODE before any write
  deriving DecidableEq, Repr

/-- `OF_SIGN_RULE` (41_move_arith.md R126, 92 D26): how ADD and SUB read "positive" and "negative". -/
inductive OfSignRule where
  | strict   -- zero is neither
  | signBit  -- the sign bit alone
  deriving DecidableEq, Repr

/-- The parameters of R7 that an implementation fixes. -/
structure Params where
  opcodeOf        : Opcode → BitVec 6
  regIdOf         : Reg → Byte
  badRegPolicy    : BadRegPolicy
  ofSignRule      : OfSignRule
  badopExitStatus : Nat
  abortExitStatus : Nat

/-- What the spec asks of the parameters: both maps injective (R21, R78), the abort's exit status non-zero (R212). -/
structure Params.Wf (p : Params) : Prop where
  opcodeOf_inj : Function.Injective p.opcodeOf
  regIdOf_inj  : Function.Injective p.regIdOf
  abort_ne     : p.abortExitStatus ≠ 0

/-- FREE VALUE `STACK0` (10_state.md R34, 92 D9, DESIGN CHOICE, log 5): the stack's contents at reset, arbitrary and
fixed for the run. -/
opaque Config.stack0 : Byte → Byte

/-- FREE VALUE (DESIGN CHOICE, log 11): under `BadRegPolicy.fault`, whether the diagnostic names A (true) or B (false)
when both identifiers of a REG_REG instruction are out of range; the spec does not say. The default machine never
reads it. -/
opaque Config.reportsSource : Byte → Byte → Bool

end Sys2Proof
end

