-- ==== Sys2Proof/Decode.lean ====
section
/-! DEFINITION. The decoder of 30_encoding.md (R70 to R82), total on every word and on every byte sequence, rejecting by
name, and after it the encoder of R84, both over the opcode map as a parameter (R78); the default map and the table of
allowed modes (R79). -/

namespace Sys2Proof

/-! ### The opcode table -/

/-- The default `OPCODE_OF` (R78; the spec's choice 92 D1, UNVERIFIED, log 1). -/
def defaultOpcodeOf : Opcode → BitVec 6
  | .mov => 0x00#6 | .add => 0x01#6 | .sub => 0x02#6 | .mul => 0x03#6 | .cmp => 0x04#6 | .push => 0x05#6
  | .pop => 0x06#6 | .jmp => 0x07#6 | .be => 0x08#6 | .bne => 0x09#6 | .print => 0x0A#6

/-- The modes an opcode allows (R79): 21 legal pairs. -/
def Opcode.allows (op : Opcode) (m : Mode) : Bool :=
  match op, m with
  | .mov, .regReg | .mov, .regVal | .add, .regReg | .add, .regVal | .sub, .regReg | .sub, .regVal
  | .mul, .regReg | .mul, .regVal | .cmp, .regReg | .cmp, .regVal => true
  | .push, .regOnly | .push, .valOnly | .jmp, .regOnly | .jmp, .valOnly | .be, .regOnly | .be, .valOnly
  | .bne, .regOnly | .bne, .valOnly | .print, .regOnly | .print, .valOnly => true
  | .pop, .regOnly => true
  | .mov, .regOnly | .mov, .valOnly | .add, .regOnly | .add, .valOnly | .sub, .regOnly | .sub, .valOnly
  | .mul, .regOnly | .mul, .valOnly | .cmp, .regOnly | .cmp, .valOnly => false
  | .push, .regReg | .push, .regVal | .jmp, .regReg | .jmp, .regVal | .be, .regReg | .be, .regVal
  | .bne, .regReg | .bne, .regVal | .print, .regReg | .print, .regVal => false
  | .pop, .regReg | .pop, .regVal | .pop, .valOnly => false

/-- The instruction's mode is in its opcode's allowed set (R104). -/
def Instr.modeAllowed (i : Instr) : Bool := i.op.allows i.mode

/-! ### Fields of the word (R71) -/

def opcodeField (w : Word) : BitVec 6 := w.extractLsb' 26 6
def modeField (w : Word) : BitVec 2 := w.extractLsb' 24 2
def aField (w : Word) : Byte := w.extractLsb' 8 8
def bField (w : Word) : Byte := w.extractLsb' 0 8

/-- The meaning of the mode bits (R73). -/
def Mode.ofBits (b : BitVec 2) : Mode :=
  if b = 0b00#2 then .regReg else if b = 0b01#2 then .regVal else if b = 0b10#2 then .regOnly else .valOnly

/-- The mode bits of a mode (R73). -/
def Mode.bits : Mode → BitVec 2
  | .regReg => 0b00#2 | .regVal => 0b01#2 | .regOnly => 0b10#2 | .valOnly => 0b11#2

/-! ### The decoder (R76) -/

/-- The opcode a 6-bit field names, if any. -/
def opcodeNamed (opcodeOf : Opcode → BitVec 6) (opc : BitVec 6) : Option Opcode :=
  Opcode.all.find? fun op => opcodeOf op == opc

/-- `decode(w)` of R76 under an opcode map. Bits 23:16 are not read (R72; UNVERIFIED, log 16); the mode is not checked
(92 D21). -/
def decodeUnder (opcodeOf : Opcode → BitVec 6) (w : Word) : Decoded :=
  match opcodeNamed opcodeOf (opcodeField w) with
  | some op => .known (Instr.build op (Mode.ofBits (modeField w)) (aField w) (bField w))
  | none    => .unknown (opcodeField w)

/-- The decoder under the default opcode map. -/
def decode (w : Word) : Decoded := decodeUnder defaultOpcodeOf w

/-- The decoder block's outputs for its input `w` (R76, R219). -/
def decoderPorts (opcodeOf : Opcode → BitVec 6) (w : Word) : DecoderPorts :=
  { known := (opcodeNamed opcodeOf (opcodeField w)).isSome
    op := opcodeNamed opcodeOf (opcodeField w)
    opcode := opcodeField w
    mode := modeField w
    a := aField w
    b := bField w }

/-! ### Bytes and words (20_memory.md R50) -/

/-- The big-endian word at the head of a byte sequence and what follows it; none when fewer than four bytes are left. -/
def takeWord : List Byte → Option (Word × List Byte)
  | b0 :: b1 :: b2 :: b3 :: rest => some (b0 ++ b1 ++ b2 ++ b3, rest)
  | _ => none

/-- The four bytes of a word as the code image stores them, most significant first. -/
def wordBytes (w : Word) : List Byte :=
  [w.extractLsb' 24 8, w.extractLsb' 16 8, w.extractLsb' 8 8, w.extractLsb' 0 8]

/-- Decode the instruction at the head of a byte sequence, answering it with the remaining bytes. -/
def decodeBytes (bs : List Byte) : Except DecodeReject (Instr × List Byte) :=
  match takeWord bs with
  | none => .error (.truncated bs.length)
  | some (w, rest) =>
    match decode w with
    | .known i => .ok (i, rest)
    | .unknown opc => .error (.unknownOpcode opc)

/-! ### The encoder (R84) -/

/-- Operand A is read only under REG_REG and REG_VAL (R73, R74). -/
def Mode.usesA : Mode → Bool
  | .regReg | .regVal => true
  | .regOnly | .valOnly => false

/-- The same instruction with an ignored operand A set to zero: the canonical form of R84. -/
def Instr.canonical (i : Instr) : Instr :=
  Instr.build i.op i.mode (if i.mode.usesA then i.a else 0#8) i.b

/-- `enc` of R84 under an opcode map: zeros in bits 23:16, and in A for one-operand modes. -/
def encodeUnder (opcodeOf : Opcode → BitVec 6) (i : Instr) : Word :=
  opcodeOf i.op ++ i.mode.bits ++ 0#8 ++ (if i.mode.usesA then i.a else 0#8) ++ i.b

/-- The encoder under the default opcode map. -/
def encode (i : Instr) : Word := encodeUnder defaultOpcodeOf i

/-! ### The host's question -/

/-- The instruction the decoder reads from a word given as the table numbers its bits (bit 0 least significant), laid
out in the image's byte order; bits from `nbits` up are zero. -/
def decodeTableWord (nbits w : Nat) : Option Instr :=
  match decodeBytes (wordBytes (BitVec.ofNat 32 (w % 2 ^ nbits))) with
  | .ok (i, _) => some i
  | .error _   => none

end Sys2Proof
end

