-- ==== Sys2Proof/Machine/Params.lean ====
section
/-! DEFINITION. The values of the implementation parameters this model runs with: the defaults of 00_scope.md R7. -/

namespace Sys2Proof.Machine

/-- The default `REG_ID_OF` (10_state.md R21; the spec's choice 92 D2, UNVERIFIED, log 2). -/
def defaultRegIdOf : Reg → Byte
  | .r0 => 0x00#8 | .r1 => 0x01#8 | .r2 => 0x02#8 | .pc => 0x03#8 | .sp => 0x04#8 | .bp => 0x05#8
  | .zf => 0x06#8 | .cf => 0x07#8 | .of => 0x08#8

/-- The defaults of R7: UNVERIFIED, logs 1, 2, 3, 4 and 13. -/
def params : Params :=
  { opcodeOf := defaultOpcodeOf
    regIdOf := defaultRegIdOf
    badRegPolicy := .ignore
    ofSignRule := .strict
    badopExitStatus := 0
    abortExitStatus := 1 }

end Sys2Proof.Machine
end

