-- ==== Sys2Proof/Machine/State.lean ====
section
/-! DEFINITION. The whole machine state as one value (10_state.md R43) and its value at reset (R42): nine registers, the
stack, the code image, the run status, the output trace and the diagnostic record; and the reasons a step can stop. The
pre-execution PC latch (R37) and the decoded instruction (R38) live only within a step. -/

namespace Sys2Proof.Machine

/-- The register file: nine unsigned 8-bit registers (R20). -/
structure Regs where
  r0 : Byte
  r1 : Byte
  r2 : Byte
  pc : Byte
  sp : Byte
  bp : Byte
  zf : Byte
  cf : Byte
  of : Byte
  deriving DecidableEq, Repr

/-- The stack as the bytes this run has written, by index, in rising order. An unlisted index holds no written value:
the stack read of Machine/Ops.lean answers `STACK0` there (R53; DESIGN CHOICE, log 5). -/
abbrev Memory := List Host.Cell

/-- The run status (R36). Every status but `running` is terminal. -/
inductive RunStatus where
  | loadRejected | running | haltEnd | haltBadop | abortMode
  deriving DecidableEq, Repr

/-- The diagnostic record (R40): what was wrong and the PC of the offending word. -/
inductive Diag where
  | unknownOpcode (pc : Byte) (opcode : BitVec 6)
  | illegalMode   (pc : Byte) (op : Opcode) (mode : Mode)
  | badRegister   (pc : Byte) (op : Opcode) (id : Byte)
  deriving DecidableEq, Repr

/-- The machine state (R43). -/
structure State where
  regs   : Regs
  stack  : Memory
  code   : List Byte
  status : RunStatus
  out    : List Byte
  diag   : Option Diag
  deriving DecidableEq, Repr

/-- Why a step faults. -/
inductive Fault where
  /-- Raised by the step alone, when the run status is terminal: "a terminal status has no step" (40_dispatch.md R100,
  R111; 93 I14, `stuck`). Safe: the machine stops where the hardware stops; no instruction raises it. -/
  | noStep (status : RunStatus)
  deriving DecidableEq, Repr

/-- Why an instruction is refused. -/
inductive Refusal where
  /-- Raised by an arm of Machine/Dispatch.lean whose instruction has no meaning yet. Safe: the machine stops. No arm
  of this model raises it: all eleven opcodes have their meaning. -/
  | notModelled (mnemonic : String)
  deriving DecidableEq, Repr

/-- The state right after reset (R42, R230, R231): all nine registers 0, nothing yet written to the stack (so every
byte reads as `STACK0`), RUNNING, no output, no diagnostic. No image has been loaded from outside: the image is the
empty one, which the load accepts (R236, D16; DESIGN CHOICE, log 6). -/
def State.reset : State :=
  { regs := ⟨0, 0, 0, 0, 0, 0, 0, 0, 0⟩
    stack := []
    code := []
    status := .running
    out := []
    diag := none }

end Sys2Proof.Machine
end

