-- ==== Sys2Proof/Machine/Ops.lean ====
section
/-! DEFINITION. The named operations over registers, stack and code image, and the ending of a run: normal halt, and
the one shared operation that enters an error state (60_exceptions.md R200 to R209). There is no return from an error
(R209), so no operation undoes it. -/

namespace Sys2Proof.Machine

/-! ### Registers -/

/-- The value of a register. -/
def State.get (s : State) : Reg → Byte
  | .r0 => s.regs.r0 | .r1 => s.regs.r1 | .r2 => s.regs.r2 | .pc => s.regs.pc | .sp => s.regs.sp
  | .bp => s.regs.bp | .zf => s.regs.zf | .cf => s.regs.cf | .of => s.regs.of

/-- The register file with one register written. -/
def Regs.set (g : Regs) (r : Reg) (v : Byte) : Regs :=
  match r with
  | .r0 => { g with r0 := v } | .r1 => { g with r1 := v } | .r2 => { g with r2 := v } | .pc => { g with pc := v }
  | .sp => { g with sp := v } | .bp => { g with bp := v } | .zf => { g with zf := v } | .cf => { g with cf := v }
  | .of => { g with of := v }

/-- The state with one register written. -/
def State.set (s : State) (r : Reg) (v : Byte) : State := { s with regs := s.regs.set r v }

/-! ### The stack (20_memory.md R53) -/

/-- The byte listed at an index, if any. -/
def Memory.get? : Memory → Nat → Option Byte
  | [], _ => none
  | (k, v) :: m, i => if i = k then some v else Memory.get? m i

/-- The memory with one byte written, kept in rising order. -/
def Memory.put : Memory → Nat → Byte → Memory
  | [], i, v => [(i, v)]
  | (k, u) :: m, i, v =>
    if i < k then (i, v) :: (k, u) :: m
    else if i = k then (i, v) :: m
    else (k, u) :: Memory.put m i v

/-- The canonical form: indices strictly rising and inside the 256-byte stack (R33). -/
abbrev Memory.wf (m : Memory) : Prop := m.Pairwise (fun x y => x.1 < y.1) ∧ ∀ c ∈ m, c.1 < 256

/-- `MemRead(STACK, i, 1)`: the last write of this run to byte i, or `STACK0[i]` (R34, R53). -/
def State.stackRead (s : State) (i : Byte) : Byte := (Memory.get? s.stack i.toNat).getD (Config.stack0 i)

/-- `MemWrite(STACK, i, 1, v)`: changes exactly byte i (R53). -/
def State.stackWrite (s : State) (i v : Byte) : State := { s with stack := Memory.put s.stack i.toNat v }

/-! ### The code image (40_dispatch.md R101, R102) -/

/-- `CODE_LEN`. -/
def State.codeLen (s : State) : Nat := s.code.length

/-- The byte offset of the word PC selects, exact and not truncated (R101, 92 D8; UNVERIFIED, log 18). -/
def State.fetchOffset (s : State) : Nat := 4 * (s.get .pc).toNat

/-- The word PC selects, big-endian (R50); none exactly when `off + 4 > CODE_LEN` (R101). -/
def State.fetch? (s : State) : Option Word := (takeWord (s.code.drop s.fetchOffset)).map Prod.fst

/-! ### The output trace (44_output.md R160) -/

/-- `emit(v)`: append a value to the output trace. -/
def State.emit (s : State) (v : Byte) : State := { s with out := s.out ++ [v] }

/-! ### The end of a run -/

/-- Halt normally: the status becomes HALT_END and no other state changes (R101). -/
def State.haltEnd (s : State) : State := { s with status := .haltEnd }

/-- Enter an error state (60_exceptions.md R208): the status becomes the outcome's terminal status and the diagnostic
record is set; no register, stack byte or output changes, PC keeps the offending index, and control goes nowhere. -/
def State.raise (s : State) (outcome : RunStatus) (d : Diag) : State :=
  { s with status := outcome, diag := some d }

/-- `raise UnknownOpcode(PC, opc)` (R103, R201). -/
def State.raiseUnknownOpcode (s : State) (opc : BitVec 6) : State :=
  s.raise .haltBadop (.unknownOpcode (s.get .pc) opc)

/-- `raise IllegalMode(PC, op, mode)` (R104, R202). -/
def State.raiseIllegalMode (s : State) (op : Opcode) (m : Mode) : State :=
  s.raise .abortMode (.illegalMode (s.get .pc) op m)

/-- The abort of `BAD_REG_POLICY = Fault` (10_state.md R22, R40; 92 D31). -/
def State.raiseBadRegister (s : State) (op : Opcode) (id : Byte) : State :=
  s.raise .abortMode (.badRegister (s.get .pc) op id)

end Sys2Proof.Machine
end

