-- ==== Sys2Proof/Machine/Operands.lean ====
section
/-! DEFINITION. Register identifiers (10_state.md R21, R22), operand resolution (30_encoding.md R74), and the frame every
instruction runs in: mode check, identifier check, PC advance (40_dispatch.md R104, R105, R108). -/

namespace Sys2Proof.Machine

/-- The register an 8-bit identifier names, if any (R21). -/
def namedReg (p : Params) (id : Byte) : Option Reg := Reg.all.find? fun r => p.regIdOf r == id

/-- `x[id]` (R10, R22): an out-of-range identifier reads 0. -/
def State.readId (s : State) (p : Params) (id : Byte) : Byte :=
  match namedReg p id with
  | some r => s.get r
  | none   => 0#8

/-- `x[id] <- v` (R10, R22): a write through an out-of-range identifier changes no state. -/
def State.writeId (s : State) (p : Params) (id v : Byte) : State :=
  match namedReg p id with
  | some r => s.set r v
  | none   => s

/-- The value an instruction's operand resolves to (R74): `src` under the two-operand modes, `v` under the one-operand
modes. -/
def State.resolve (s : State) (p : Params) (m : Mode) (a b : Byte) : Byte :=
  match m with
  | .regReg  => s.readId p a
  | .regVal  => a
  | .regOnly => s.readId p b
  | .valOnly => b

/-- The register identifiers among an instruction's operand bytes (R73). -/
def Instr.identifiers (i : Instr) : List Byte :=
  match i.mode with
  | .regReg  => [i.a, i.b]
  | .regVal  => [i.b]
  | .regOnly => [i.b]
  | .valOnly => []

/-- The identifier the Fault policy aborts on, if any (R22). Where both identifiers of a REG_REG instruction are out of
range, which one the diagnostic names is free (DESIGN CHOICE, log 11). -/
def badIdentifier (p : Params) (i : Instr) : Option Byte :=
  match p.badRegPolicy with
  | .ignore => none
  | .fault =>
    match (Instr.identifiers i).filter fun id => (namedReg p id).isNone with
    | [] => none
    | [id] => some id
    | x :: y :: _ => some (if Config.reportsSource x y then x else y)

/-- Steps 5 and 6 of the loop (R105): PC advances by one instruction, modulo 256, only if its value is the one latched
before execution (92 D8; UNVERIFIED, log 18). -/
def State.advance (s : State) (pre : Byte) : State :=
  if s.get .pc = pre then s.set .pc (s.get .pc + 1#8) else s

/-- An instruction `i` run in state `s`, where `t` is `s` after the opcode's own effect: the mode check, then the
identifier check, then the effect and the advance (R104, R105, R108). A failing check keeps `s` and discards `t`. -/
def complete (p : Params) (i : Instr) (s t : State) : Host.Outcome State Fault Refusal :=
  if i.modeAllowed then
    match badIdentifier p i with
    | some id => .next (s.raiseBadRegister i.op id)
    | none    => .next (t.advance (s.get .pc))
  else .next (s.raiseIllegalMode i.op i.mode)

end Sys2Proof.Machine
end

