-- ==== Sys2Proof/Machine/Control.lean ====
section
/-! DEFINITION. JMP, BE, BNE (43_control.md R150 to R152). Targets are absolute instruction indices (R154). -/

namespace Sys2Proof.Machine

/-- R150. -/
def jmpEffect (p : Params) (m : Mode) (a b : Byte) (s : State) : State :=
  s.set .pc (s.resolve p m a b)

/-- JMP (R150). -/
def execJmp (m : Mode) (a b : Byte) (s : State) : Host.Outcome State Fault Refusal :=
  complete params (.jmp m a b) s (jmpEffect params m a b s)

/-- R151: taken exactly when ZF is 1. -/
def beEffect (p : Params) (m : Mode) (a b : Byte) (s : State) : State :=
  if s.get .zf = 1#8 then s.set .pc (s.resolve p m a b) else s

/-- BE (R151). -/
def execBe (m : Mode) (a b : Byte) (s : State) : Host.Outcome State Fault Refusal :=
  complete params (.be m a b) s (beEffect params m a b s)

/-- R152: taken exactly when ZF is not 1. -/
def bneEffect (p : Params) (m : Mode) (a b : Byte) (s : State) : State :=
  if s.get .zf ≠ 1#8 then s.set .pc (s.resolve p m a b) else s

/-- BNE (R152). -/
def execBne (m : Mode) (a b : Byte) (s : State) : Host.Outcome State Fault Refusal :=
  complete params (.bne m a b) s (bneEffect params m a b s)

end Sys2Proof.Machine
end

