-- ==== Sys2Proof/Machine/Flags.lean ====
section
/-! DEFINITION. The arithmetic of ADD, SUB, MUL and CMP and every flag computation (41_move_arith.md R121 to R127). -/

namespace Sys2Proof.Machine

/-- The three flag values an instruction computes. -/
structure FlagBits where
  zf : Bool
  cf : Bool
  of : Bool
  deriving DecidableEq, Repr

/-- `s8(v)` (00_scope.md R9): the two's-complement reading. -/
def s8 (v : Byte) : Int := if v.toNat < 128 then v.toNat else (v.toNat : Int) - 256

/-- "positive" under the sign rule (R126). -/
def isPos (rule : OfSignRule) (v : Byte) : Bool :=
  match rule with
  | .strict  => decide (0 < s8 v)
  | .signBit => !v.getLsbD 7

/-- "negative" under the sign rule (R126). -/
def isNeg (rule : OfSignRule) (v : Byte) : Bool :=
  match rule with
  | .strict  => decide (s8 v < 0)
  | .signBit => v.getLsbD 7

/-- `zext_16(v)` (R9). -/
def zext16 (v : Byte) : Wide := v.setWidth 16

/-- `u8` of a 16-bit intermediate (R9, R125). -/
def u8 (x : Wide) : Byte := x.setWidth 8

/-- The 16-bit sum, and the byte ADD stores (R121). -/
def addWide (v1 v2 : Byte) : Wide := zext16 v1 + zext16 v2
def addResult (v1 v2 : Byte) : Byte := u8 (addWide v1 v2)

/-- ADD's flags (R121). -/
def addFlags (rule : OfSignRule) (v1 v2 : Byte) : FlagBits :=
  { zf := addResult v1 v2 == 0#8
    cf := decide (255 < (addWide v1 v2).toNat)
    of := (isPos rule v1 && isPos rule v2 && isNeg rule (addResult v1 v2))
          || (isNeg rule v1 && isNeg rule v2 && isPos rule (addResult v1 v2)) }

/-- The byte SUB stores: destination minus source (R122). -/
def subResult (v1 v2 : Byte) : Byte := u8 (zext16 v1 - zext16 v2)

/-- SUB's flags (R122); CF is the unsigned borrow. -/
def subFlags (rule : OfSignRule) (v1 v2 : Byte) : FlagBits :=
  { zf := subResult v1 v2 == 0#8
    cf := decide (v1.toNat < v2.toNat)
    of := (isPos rule v1 && isNeg rule v2 && isNeg rule (subResult v1 v2))
          || (isNeg rule v1 && isPos rule v2 && isPos rule (subResult v1 v2)) }

/-- The byte MUL stores (R123). -/
def mulResult (v1 v2 : Byte) : Byte := u8 (zext16 v1 * zext16 v2)

/-- CMP's signed difference, first operand minus second, exact (R124; 92 D5, UNVERIFIED, log 15). -/
def cmpDiff (v1 v2 : Byte) : Int := s8 v1 - s8 v2

/-- CMP's flags: equal, greater, less (R124). -/
def cmpFlags (v1 v2 : Byte) : FlagBits :=
  { zf := decide (cmpDiff v1 v2 = 0)
    cf := decide (1 ≤ cmpDiff v1 v2)
    of := decide (cmpDiff v1 v2 ≤ -1) }

/-- A flag stored as an 8-bit register holds 0 or 1 from the flag logic (R9, R27); any other byte comes only
through its identifier (UNVERIFIED, log 12). -/
def flagByte (b : Bool) : Byte := if b then 1#8 else 0#8

/-- Write all three flags (R121, R122, R124). -/
def State.setFlags (s : State) (f : FlagBits) : State :=
  ((s.set .zf (flagByte f.zf)).set .cf (flagByte f.cf)).set .of (flagByte f.of)

end Sys2Proof.Machine
end

