-- ==== Sys2Proof/Machine/MoveArith.lean ====
section
/-! DEFINITION. MOV, ADD, SUB, MUL, CMP (41_move_arith.md R120 to R124). Each `…Effect` is the rule's pseudocode under
any parameters; each `exec…` is the instruction of the default machine, checks and PC advance included. Operands are
read before any write (40_dispatch.md R107; UNVERIFIED, log 19). -/

namespace Sys2Proof.Machine

/-- R120. -/
def movEffect (p : Params) (m : Mode) (a b : Byte) (s : State) : State :=
  s.writeId p b (s.resolve p m a b)

/-- MOV (R120). -/
def execMov (m : Mode) (a b : Byte) (s : State) : Host.Outcome State Fault Refusal :=
  complete params (.mov m a b) s (movEffect params m a b s)

/-- R121; the result is stored before the flags are written (R127; UNVERIFIED, log 17). -/
def addEffect (p : Params) (m : Mode) (a b : Byte) (s : State) : State :=
  (s.writeId p b (addResult (s.readId p b) (s.resolve p m a b))).setFlags
    (addFlags p.ofSignRule (s.readId p b) (s.resolve p m a b))

/-- ADD (R121). -/
def execAdd (m : Mode) (a b : Byte) (s : State) : Host.Outcome State Fault Refusal :=
  complete params (.add m a b) s (addEffect params m a b s)

/-- R122; the result is stored before the flags are written (R127; UNVERIFIED, log 17). -/
def subEffect (p : Params) (m : Mode) (a b : Byte) (s : State) : State :=
  (s.writeId p b (subResult (s.readId p b) (s.resolve p m a b))).setFlags
    (subFlags p.ofSignRule (s.readId p b) (s.resolve p m a b))

/-- SUB (R122). -/
def execSub (m : Mode) (a b : Byte) (s : State) : Host.Outcome State Fault Refusal :=
  complete params (.sub m a b) s (subEffect params m a b s)

/-- R123; no flag is modified. -/
def mulEffect (p : Params) (m : Mode) (a b : Byte) (s : State) : State :=
  s.writeId p b (mulResult (s.readId p b) (s.resolve p m a b))

/-- MUL (R123). -/
def execMul (m : Mode) (a b : Byte) (s : State) : Host.Outcome State Fault Refusal :=
  complete params (.mul m a b) s (mulEffect params m a b s)

/-- R124; no register but the flags is written. -/
def cmpEffect (p : Params) (m : Mode) (a b : Byte) (s : State) : State :=
  s.setFlags (cmpFlags (s.readId p b) (s.resolve p m a b))

/-- CMP (R124). -/
def execCmp (m : Mode) (a b : Byte) (s : State) : Host.Outcome State Fault Refusal :=
  complete params (.cmp m a b) s (cmpEffect params m a b s)

end Sys2Proof.Machine
end

