-- ==== Sys2Proof/Machine/Output.lean ====
section
/-! DEFINITION. PRINT (44_output.md R160). -/

namespace Sys2Proof.Machine

/-- R160: no register and no stack byte changes. -/
def printEffect (p : Params) (m : Mode) (a b : Byte) (s : State) : State :=
  s.emit (s.resolve p m a b)

/-- PRINT (R160). -/
def execPrint (m : Mode) (a b : Byte) (s : State) : Host.Outcome State Fault Refusal :=
  complete params (.print m a b) s (printEffect params m a b s)

end Sys2Proof.Machine
end

