-- ==== Sys2Proof/Machine/Stack.lean ====
section
/-! DEFINITION. PUSH and POP (42_stack.md R140, R141). SP is the next free slot and wraps modulo 256 (10_state.md R24). -/

namespace Sys2Proof.Machine

/-- R140: write at SP, then increment; the value is read before the increment (R107). -/
def pushEffect (p : Params) (m : Mode) (a b : Byte) (s : State) : State :=
  (s.stackWrite (s.get .sp) (s.resolve p m a b)).set .sp (s.get .sp + 1#8)

/-- PUSH (R140). -/
def execPush (m : Mode) (a b : Byte) (s : State) : Host.Outcome State Fault Refusal :=
  complete params (.push m a b) s (pushEffect params m a b s)

/-- R141: decrement SP, read the byte there, then write the register B names. -/
def popEffect (p : Params) (b : Byte) (s : State) : State :=
  (s.set .sp (s.get .sp - 1#8)).writeId p b (s.stackRead (s.get .sp - 1#8))

/-- POP (R141). -/
def execPop (m : Mode) (a b : Byte) (s : State) : Host.Outcome State Fault Refusal :=
  complete params (.pop m a b) s (popEffect params b s)

end Sys2Proof.Machine
end

