-- ==== Sys2Proof/Machine/Dispatch.lean ====
section
/-! DEFINITION. The closed case analysis of 40_dispatch.md R109: one arm per opcode, and no other arm. -/

namespace Sys2Proof.Machine

def exec (i : Instr) (s : State) : Host.Outcome State Fault Refusal :=
  match i with
  | .mov m a b => Sys2Proof.Machine.execMov m a b s
  | .add m a b => Sys2Proof.Machine.execAdd m a b s
  | .sub m a b => Sys2Proof.Machine.execSub m a b s
  | .mul m a b => Sys2Proof.Machine.execMul m a b s
  | .cmp m a b => Sys2Proof.Machine.execCmp m a b s
  | .push m a b => Sys2Proof.Machine.execPush m a b s
  | .pop m a b => Sys2Proof.Machine.execPop m a b s
  | .jmp m a b => Sys2Proof.Machine.execJmp m a b s
  | .be m a b => Sys2Proof.Machine.execBe m a b s
  | .bne m a b => Sys2Proof.Machine.execBne m a b s
  | .print m a b => Sys2Proof.Machine.execPrint m a b s

end Sys2Proof.Machine
end

