-- ==== Sys2Proof/Machine/Loop.lean ====
section
/-! DEFINITION. The dispatch loop (40_dispatch.md R100 to R106) over any parameters and any executor; the executor under
any parameters; placing a word where the loop fetches. -/

namespace Sys2Proof.Machine

/-- One iteration of the loop (R106) in a RUNNING state: bound check, fetch, decode, then the executor `ex`, which
holds the mode check, the effect and the advance. -/
def runningStep (p : Params) (ex : Instr → State → Host.Outcome State Fault Refusal) (s : State) :
    Host.Outcome State Fault Refusal :=
  match s.fetch? with
  | none => .next s.haltEnd
  | some w =>
    match decodeUnder p.opcodeOf w with
    | .unknown opc => .next (s.raiseUnknownOpcode opc)
    | .known i => ex i s

/-- The step: defined only from RUNNING; a terminal status has no step (R100, R111; DEDUCED, log 8). -/
def loopStep (p : Params) (ex : Instr → State → Host.Outcome State Fault Refusal) (s : State) :
    Host.Outcome State Fault Refusal :=
  match s.status with
  | .running => runningStep p ex s
  | .loadRejected => .fault (.noStep .loadRejected)
  | .haltEnd => .fault (.noStep .haltEnd)
  | .haltBadop => .fault (.noStep .haltBadop)
  | .abortMode => .fault (.noStep .abortMode)

/-- Every opcode's own effect, under any parameters. -/
def effect (p : Params) (i : Instr) (s : State) : State :=
  match i with
  | .mov m a b => movEffect p m a b s
  | .add m a b => addEffect p m a b s
  | .sub m a b => subEffect p m a b s
  | .mul m a b => mulEffect p m a b s
  | .cmp m a b => cmpEffect p m a b s
  | .push m a b => pushEffect p m a b s
  | .pop _ _ b => popEffect p b s
  | .jmp m a b => jmpEffect p m a b s
  | .be m a b => beEffect p m a b s
  | .bne m a b => bneEffect p m a b s
  | .print m a b => printEffect p m a b s

/-- The executor under any parameters (R7); `exec` is this one at the defaults (Laws/Exec.lean). -/
def execUnder (p : Params) (i : Instr) (s : State) : Host.Outcome State Fault Refusal :=
  complete p i s (effect p i s)

/-- The step under any parameters; `step` is this one at the defaults (Laws/Step.lean). -/
def stepUnder (p : Params) (s : State) : Host.Outcome State Fault Refusal := loopStep p (execUnder p) s

/-- A code image with the four bytes of `w` at byte offset `off`; an image shorter than `off` is first filled up with
zero bytes (DESIGN CHOICE, log 6). -/
def placeWord (code : List Byte) (off : Nat) (w : Word) : List Byte :=
  code.take off ++ List.replicate (off - code.length) 0#8 ++ wordBytes w ++ code.drop (off + 4)

end Sys2Proof.Machine
end

