-- ==== Sys2Proof/Machine/Step.lean ====
section
/-! DEFINITION. The machine's step (40_dispatch.md R106) at the default parameters, and the host's placing of a word
where that step fetches. -/

namespace Sys2Proof.Machine

/-- One step of the machine. -/
def step (s : State) : Host.Outcome State Fault Refusal := loopStep params exec s

/-- `s` with a word (its bits from `nbits` up zero) in the code image where PC fetches, and RUNNING, which the fetch
needs (DESIGN CHOICE, log 6). -/
def State.withFetchWord (s : State) (nbits w : Nat) : State :=
  { s with code := placeWord s.code s.fetchOffset (BitVec.ofNat 32 (w % 2 ^ nbits)), status := .running }

end Sys2Proof.Machine
end

