-- ==== Sys2Proof/Machine/HostView.lean ====
section
/-! DEFINITION. What the host sees of the block (60_exceptions.md R204, R212, R219; 44_output.md R161): status code, exit
status, fetch address, diagnostic signals, output transaction, rendered text. No rule of the block reads any of it. -/

namespace Sys2Proof.Machine

/-- The `status` signal: the codes of R204, and 4 for RUNNING (R219). -/
def RunStatus.code : RunStatus → BitVec 3
  | .haltEnd => 0#3 | .haltBadop => 1#3 | .abortMode => 2#3 | .loadRejected => 3#3 | .running => 4#3

/-- The exit status of an ended run (R212; UNVERIFIED, log 13). -/
def RunStatus.exitStatus (p : Params) : RunStatus → Option Nat
  | .running => none
  | .haltEnd => some 0
  | .haltBadop => some p.badopExitStatus
  | .abortMode => some p.abortExitStatus
  | .loadRejected => some 1

/-- `code_rd_addr` (R219). -/
def State.codeRdAddr (s : State) : Nat := s.fetchOffset

/-- `diag_pc`: valid in HALT_BADOP and ABORT_MODE. -/
def State.diagPc (s : State) : Option Byte :=
  match s.diag with
  | some (.unknownOpcode pc _) | some (.illegalMode pc _ _) | some (.badRegister pc _ _) => some pc
  | none => none

/-- `diag_opcode`: the opcode field of the offending word, at which PC still stands (DEDUCED, log 14). -/
def State.diagOpcode (s : State) : Option (BitVec 6) :=
  match s.status with
  | .haltBadop | .abortMode => s.fetch?.map opcodeField
  | .loadRejected | .running | .haltEnd => none

/-- `diag_mode`: the mode field of the offending word, valid in ABORT_MODE. -/
def State.diagMode (s : State) : Option (BitVec 2) :=
  match s.status with
  | .abortMode => s.fetch?.map modeField
  | .loadRejected | .running | .haltEnd | .haltBadop => none

/-- `diag_reg`: the out-of-range identifier of an abort under the Fault policy. -/
def State.diagReg (s : State) : Option Byte :=
  match s.diag with
  | some (.badRegister _ _ id) => some id
  | some (.unknownOpcode _ _) | some (.illegalMode _ _ _) | none => none

/-- `out_valid` and `out_data` of the step from `s` to `t`: the value that step emitted, if any. -/
def outTransaction (s t : State) : Option Byte := (t.out.drop s.out.length).head?

/-- The ASCII digit of a number below ten (R161; general knowledge, 93 G2). -/
def asciiDigit (d : Nat) : Byte := BitVec.ofNat 8 (0x30 + d)

/-- The line the host shows for an emitted value: shortest unsigned decimal, then LF (R161; PRESUMED, log 23). -/
def renderLine (v : Byte) : List Byte :=
  (if 100 ≤ v.toNat then [asciiDigit (v.toNat / 100)] else [])
    ++ (if 10 ≤ v.toNat then [asciiDigit (v.toNat / 10 % 10)] else [])
    ++ [asciiDigit (v.toNat % 10), 0x0A#8]

/-- The host's standard output for an output trace, in order (R161, R162). -/
def renderTrace (out : List Byte) : List Byte := out.flatMap renderLine

end Sys2Proof.Machine
end

