-- ==== Sys2Proof/Machine/Load.lean ====
section
/-! DEFINITION. The load and the launch of a run (70_reset_and_hazards.md R236, R237; 60_exceptions.md R203). -/

namespace Sys2Proof.Machine

/-- The load accepts an image whose length is a multiple of 4, the empty one included, with no upper bound (R236,
D16). -/
def imageAccepted (image : List Byte) : Bool := image.length % 4 == 0

/-- The state after load and reset (R237). `none` is an image that could not be read. A refused image is not taken:
the engine never runs (R203; DESIGN CHOICE, log 7). -/
def State.load (image : Option (List Byte)) : State :=
  match image with
  | none => { State.reset with status := .loadRejected }
  | some bytes =>
    if imageAccepted bytes then { State.reset with code := bytes }
    else { State.reset with status := .loadRejected }

end Sys2Proof.Machine
end

