-- ==== Sys2Proof/WellFormed.lean ====
section
/-! DEFINITION. Well-formed instructions: the legal forms of 30_encoding.md R79 in the canonical writing of R84. An
out-of-range register identifier is no fault of form (10_state.md R22). -/

namespace Sys2Proof

/-- An ignored operand A is zero (R84). -/
def Instr.isCanonical (i : Instr) : Bool := i.mode.usesA || i.a == 0#8

/-- A legal mode (R79), written canonically (R84). -/
def Instr.wellFormed (i : Instr) : Bool := i.modeAllowed && i.isCanonical

end Sys2Proof
end

