-- ==== Sys2Proof/Safety.lean ====
section
/-! DEFINITION. The terms claims are stated in: how a run ends (40_dispatch.md R112), what a frame keeps, the PC rule of
R105 as a function of two values, and the invariant of the machine's state. -/

namespace Sys2Proof.Machine

/-- A run that ended normally (R112). -/
abbrev State.EndedNormally (s : State) : Prop := s.status = .haltEnd

/-- A run that ended abnormally (R112). -/
abbrev State.EndedAbnormally (s : State) : Prop := s.status = .haltBadop ∨ s.status = .abortMode

/-- Where PC stands after an instruction fetched at `pre` whose own effect left `written` in PC (R105). -/
def nextPc (pre written : Byte) : Byte := if written = pre then pre + 1#8 else written

/-- Every register outside `changed` keeps its value. -/
def RegsKept (changed : Reg → Prop) (s t : State) : Prop := ∀ r, ¬ changed r → t.get r = s.get r

/-- Every stack byte reads as before. -/
def StackKept (s t : State) : Prop := ∀ i, t.stackRead i = s.stackRead i

/-- Code image, run status and diagnostic record are unchanged. -/
def ControlKept (s t : State) : Prop := t.code = s.code ∧ t.status = s.status ∧ t.diag = s.diag

/-- `id` names the register `r` under the machine's identifier map. -/
abbrev Names (id : Byte) (r : Reg) : Prop := namedReg params id = some r

/-- The source value of a two-operand form (30_encoding.md R74): the register A names, or A itself. -/
def sourceValue (s : State) (m : Mode) (a : Byte) : Byte := if m = .regReg then s.readId params a else a

/-- The value of a one-operand form (R74): the register B names, or B itself. -/
def operandValue (s : State) (m : Mode) (b : Byte) : Byte := if m = .regOnly then s.readId params b else b

/-- A flag's byte for a condition: 1 when it holds, else 0 (00_scope.md R9). -/
def bit (c : Prop) [Decidable c] : Byte := if c then 1#8 else 0#8

/-- What the run status says of the rest of the state (R36, R40, R112, R201 to R203): HALT_END stands past the last
word; in HALT_BADOP and ABORT_MODE PC still selects the offending word and the record names it; elsewhere no record. -/
def StatusSound (p : Params) (s : State) : Prop :=
  match s.status with
  | .loadRejected => s.code = [] ∧ s.diag = none
  | .running => s.diag = none
  | .haltEnd => s.codeLen < s.fetchOffset + 4 ∧ s.diag = none
  | .haltBadop => ∃ w opc, s.fetch? = some w ∧ decodeUnder p.opcodeOf w = .unknown opc ∧
      s.diag = some (.unknownOpcode (s.get .pc) opc)
  | .abortMode => ∃ w i, s.fetch? = some w ∧ decodeUnder p.opcodeOf w = .known i ∧
      ((i.modeAllowed = false ∧ s.diag = some (.illegalMode (s.get .pc) i.op i.mode)) ∨
       (i.modeAllowed = true ∧ p.badRegPolicy = .fault ∧ ∃ id ∈ Instr.identifiers i, namedReg p id = none ∧
         s.diag = some (.badRegister (s.get .pc) i.op id)))

/-- The invariant: the stack's canonical form, an image of whole words (R35), and a sound status. -/
structure State.Inv (p : Params) (s : State) : Prop where
  stack_wf : Memory.wf s.stack
  code_words : s.codeLen % 4 = 0
  status_sound : StatusSound p s

end Sys2Proof.Machine
end

