-- ==== Sys2Proof/Certificates/Slice0/Obligations.lean ====
section
/-! DEFINITION. The statements about this machine, from the numbered rules of spec/. A premise on the state is stated
only where a rule needs it; every statement holds in unreachable states too. `Names id r` reads the machine's identifier
map; `nextPc` is the PC rule of R105. -/

open Sys2Proof Sys2Proof.Machine

/-! ### Encoding and decoding -/

/-- The example words of 30_encoding.md R87, one per legal form. -/
def exampleWords : List (Word × Instr) :=
  [(0x00000201#32, .mov .regReg 2 1), (0x01000700#32, .mov .regVal 7 0), (0x04000100#32, .add .regReg 1 0),
   (0x05000300#32, .add .regVal 3 0), (0x08000002#32, .sub .regReg 0 2), (0x09000101#32, .sub .regVal 1 1),
   (0x0C000100#32, .mul .regReg 1 0), (0x0D001000#32, .mul .regVal 16 0), (0x10000100#32, .cmp .regReg 1 0),
   (0x11007F00#32, .cmp .regVal 0x7F 0)] ++
  [(0x16000001#32, .push .regOnly 0 1), (0x1700002A#32, .push .valOnly 0 42), (0x1A000000#32, .pop .regOnly 0 0),
   (0x1E000001#32, .jmp .regOnly 0 1), (0x1F000005#32, .jmp .valOnly 0 5), (0x22000002#32, .be .regOnly 0 2),
   (0x23000008#32, .be .valOnly 0 8), (0x26000000#32, .bne .regOnly 0 0), (0x27000001#32, .bne .valOnly 0 1),
   (0x2A000000#32, .print .regOnly 0 0), (0x2B000063#32, .print .valOnly 0 99)]

/-- R87: each example word decodes to its instruction and is that instruction's encoding. The opcode and register
numbers are the spec's own choice (92 D1, D2; UNVERIFIED, logs 1 and 2). -/
def Obligations.ExampleWordsDecodeAndEncode : Prop :=
  ∀ x ∈ exampleWords, decode x.1 = .known x.2 ∧ encode x.2 = x.1

/-- R79: the legal forms are the 21 pairs the table lists, and no other pair is legal. -/
def Obligations.LegalFormsAreTheTwentyOnePairs : Prop :=
  (∀ op m, Opcode.allows op m = true ↔
    ((op = .mov ∨ op = .add ∨ op = .sub ∨ op = .mul ∨ op = .cmp) ∧ (m = .regReg ∨ m = .regVal)) ∨
    ((op = .push ∨ op = .jmp ∨ op = .be ∨ op = .bne ∨ op = .print) ∧ (m = .regOnly ∨ m = .valOnly)) ∨
    (op = .pop ∧ m = .regOnly)) ∧
  ((Opcode.all.flatMap fun op => Mode.all.filter fun m => op.allows m).length = 21)

/-- R71 under every injective opcode map: a word decodes to an instruction exactly when its bits 31:26, 25:24, 15:8 and
7:0 are that instruction's opcode, mode, A and B; no other bit takes part. -/
def Obligations.DecodedInstructionIsTheWordsFields : Prop :=
  ∀ f : Opcode → BitVec 6, Function.Injective f → ∀ (w : Word) (i : Instr),
    decodeUnder f w = .known i ↔
      ((f i.op).toNat = w.toNat / 2 ^ 26 ∧ i.mode.bits.toNat = w.toNat / 2 ^ 24 % 4 ∧
        i.a.toNat = w.toNat / 2 ^ 8 % 256 ∧ i.b.toNat = w.toNat % 256)

/-- R76, R80: under every opcode map a word is `Unknown(opc)` exactly when bits 31:26 are `opc` and no opcode has that
value; under the default map (92 D1, UNVERIFIED, log 1) these are the words with an opcode field of 11 or more. -/
def Obligations.UnknownOpcodesAreTheUnassignedValues : Prop :=
  (∀ (f : Opcode → BitVec 6) (w : Word) (opc : BitVec 6),
    decodeUnder f w = .unknown opc ↔ (opc.toNat = w.toNat / 2 ^ 26 ∧ ∀ op, f op ≠ opc)) ∧
  (∀ w : Word, (∃ opc, decode w = .unknown opc) ↔ 11 ≤ w.toNat / 2 ^ 26)

/-- R72, R74, R82 (the spec's choice 92 D4, UNVERIFIED, log 16): two words that differ only in bits 23:16 decode alike
under every map, and operand A of a one-operand form never changes what the machine does, legal or not. -/
def Obligations.IgnoredBitsNeverChangeTheOutcome : Prop :=
  (∀ (f : Opcode → BitVec 6) (w w' : Word), (w ^^^ w') &&& 0xFF00FFFF#32 = 0#32 → decodeUnder f w = decodeUnder f w') ∧
  (∀ op m (a a' b : Byte) (s : State), (m = .regOnly ∨ m = .valOnly) →
    exec (Instr.build op m a b) s = exec (Instr.build op m a' b) s)

/-- R84, for every injective opcode map and every instruction, illegal modes included: decoding an encoded instruction
gives it back with an ignored operand A zero, so a canonical instruction comes back whole. -/
def Obligations.DecodeOfEncodeIsTheInstruction : Prop :=
  ∀ f : Opcode → BitVec 6, Function.Injective f → ∀ i : Instr,
    decodeUnder f (encodeUnder f i) = .known i.canonical ∧
    (i.isCanonical = true → decodeUnder f (encodeUnder f i) = .known i)

/-- R84, the other direction: the encoding of a decoded word is that word with its don't-care bits cleared. -/
def Obligations.EncodeOfDecodeClearsTheIgnoredBits : Prop :=
  ∀ f : Opcode → BitVec 6, Function.Injective f → ∀ (w : Word) (i : Instr), decodeUnder f w = .known i →
    encodeUnder f i = w &&& (if i.mode = .regReg ∨ i.mode = .regVal then 0xFF00FFFF#32 else 0xFF0000FF#32)

/-! ### The instructions: result, frame and completion -/

/-- R120 (flags: the spec's choice 92 D19): MOV completes in both its modes, writes the source value whole into the
register B names, and changes nothing else but PC. -/
def Obligations.MovCopiesItsSource : Prop :=
  ∀ m (a b : Byte) (s : State), (m = .regReg ∨ m = .regVal) →
    ∃ t, exec (.mov m a b) s = .next t ∧
      (∀ r, Names b r → r ≠ .pc → t.get r = sourceValue s m a) ∧
      t.get .pc = nextPc (s.get .pc) (if Names b .pc then sourceValue s m a else s.get .pc) ∧
      RegsKept (fun r => Names b r ∨ r = .pc) s t ∧ StackKept s t ∧ ControlKept s t ∧ t.out = s.out

/-- R121, R125, R127 (zero counts as neither sign, 92 D26, UNVERIFIED, log 4; a flag destination keeps the flag value,
92 D6): ADD completes in both its modes with the sum modulo 256 and the three flags, and changes nothing else but PC.
-/
def Obligations.AddStoresTheSumAndItsFlags : Prop :=
  ∀ m (a b : Byte) (s : State), (m = .regReg ∨ m = .regVal) →
    let v1 := s.readId params b
    let v2 := sourceValue s m a
    ∃ t, exec (.add m a b) s = .next t ∧
      (∀ r, Names b r → r ≠ .pc → r ≠ .zf → r ≠ .cf → r ≠ .of → (t.get r).toNat = (v1.toNat + v2.toNat) % 256) ∧
      t.get .zf = bit ((v1.toNat + v2.toNat) % 256 = 0) ∧
      t.get .cf = bit (255 < v1.toNat + v2.toNat) ∧
      t.get .of = bit ((0 < v1.toInt ∧ 0 < v2.toInt ∧ (v1 + v2).toInt < 0) ∨
                       (v1.toInt < 0 ∧ v2.toInt < 0 ∧ 0 < (v1 + v2).toInt)) ∧
      t.get .pc = nextPc (s.get .pc) (if Names b .pc then v1 + v2 else s.get .pc) ∧
      RegsKept (fun r => Names b r ∨ r = .pc ∨ r = .zf ∨ r = .cf ∨ r = .of) s t ∧
      StackKept s t ∧ ControlKept s t ∧ t.out = s.out

/-- R122, R125, R127 (92 D26 and D6 as for ADD): SUB completes in both its modes with destination minus source modulo
256, the borrow in CF, ZF and OF, and changes nothing else but PC. -/
def Obligations.SubStoresTheDifferenceAndItsFlags : Prop :=
  ∀ m (a b : Byte) (s : State), (m = .regReg ∨ m = .regVal) →
    let v1 := s.readId params b
    let v2 := sourceValue s m a
    ∃ t, exec (.sub m a b) s = .next t ∧
      (∀ r, Names b r → r ≠ .pc → r ≠ .zf → r ≠ .cf → r ≠ .of →
        ((t.get r).toNat : Int) = ((v1.toNat : Int) - v2.toNat) % 256) ∧
      t.get .zf = bit (((v1.toNat : Int) - v2.toNat) % 256 = 0) ∧
      t.get .cf = bit (v1.toNat < v2.toNat) ∧
      t.get .of = bit ((0 < v1.toInt ∧ v2.toInt < 0 ∧ (v1 - v2).toInt < 0) ∨
                       (v1.toInt < 0 ∧ 0 < v2.toInt ∧ 0 < (v1 - v2).toInt)) ∧
      t.get .pc = nextPc (s.get .pc) (if Names b .pc then v1 - v2 else s.get .pc) ∧
      RegsKept (fun r => Names b r ∨ r = .pc ∨ r = .zf ∨ r = .cf ∨ r = .of) s t ∧
      StackKept s t ∧ ControlKept s t ∧ t.out = s.out

/-- R123 (operands as in ADD, 92 D24): MUL completes in both its modes with the low byte of the product, and changes
nothing else but PC; no flag unless B names it. -/
def Obligations.MulStoresTheLowByteOfTheProduct : Prop :=
  ∀ m (a b : Byte) (s : State), (m = .regReg ∨ m = .regVal) →
    let v1 := s.readId params b
    let v2 := sourceValue s m a
    ∃ t, exec (.mul m a b) s = .next t ∧
      (∀ r, Names b r → r ≠ .pc → (t.get r).toNat = v1.toNat * v2.toNat % 256) ∧
      t.get .pc = nextPc (s.get .pc) (if Names b .pc then BitVec.ofNat 8 (v1.toNat * v2.toNat) else s.get .pc) ∧
      RegsKept (fun r => Names b r ∨ r = .pc) s t ∧ StackKept s t ∧ ControlKept s t ∧ t.out = s.out

/-- R124 (first operand is the one B names, 92 D5, UNVERIFIED, log 15): CMP completes in both its modes, ZF, CF and OF
are "equal", "greater" and "less" of the signed values, and nothing else but PC changes. -/
def Obligations.CmpOrdersTheSignedOperands : Prop :=
  ∀ m (a b : Byte) (s : State), (m = .regReg ∨ m = .regVal) →
    let v1 := s.readId params b
    let v2 := sourceValue s m a
    ∃ t, exec (.cmp m a b) s = .next t ∧
      t.get .zf = bit (v1.toInt = v2.toInt) ∧
      t.get .cf = bit (v2.toInt < v1.toInt) ∧
      t.get .of = bit (v1.toInt < v2.toInt) ∧
      t.get .pc = s.get .pc + 1#8 ∧
      RegsKept (fun r => r = .pc ∨ r = .zf ∨ r = .cf ∨ r = .of) s t ∧
      StackKept s t ∧ ControlKept s t ∧ t.out = s.out

/-- R140, R24: PUSH completes in both its modes, writes the operand's value at SP alone, increments SP modulo 256, and
changes nothing else but PC, from every SP. -/
def Obligations.PushWritesAtSpThenIncrements : Prop :=
  ∀ m (a b : Byte) (s : State), (m = .regOnly ∨ m = .valOnly) →
    ∃ t, exec (.push m a b) s = .next t ∧
      t.stackRead (s.get .sp) = operandValue s m b ∧
      (∀ i, i ≠ s.get .sp → t.stackRead i = s.stackRead i) ∧
      t.get .sp = s.get .sp + 1#8 ∧ t.get .pc = s.get .pc + 1#8 ∧
      RegsKept (fun r => r = .sp ∨ r = .pc) s t ∧ ControlKept s t ∧ t.out = s.out

/-- R141, R24: POP completes, decrements SP modulo 256 and writes the byte there into the register B names (SP itself
then holds the popped byte), and changes nothing else but PC, from every SP; a byte no PUSH wrote reads as `STACK0`. -/
def Obligations.PopDecrementsThenReads : Prop :=
  ∀ (a b : Byte) (s : State),
    ∃ t, exec (.pop .regOnly a b) s = .next t ∧
      (∀ r, Names b r → r ≠ .pc → t.get r = s.stackRead (s.get .sp - 1#8)) ∧
      (¬ Names b .sp → t.get .sp = s.get .sp - 1#8) ∧
      t.get .pc = nextPc (s.get .pc) (if Names b .pc then s.stackRead (s.get .sp - 1#8) else s.get .pc) ∧
      RegsKept (fun r => Names b r ∨ r = .sp ∨ r = .pc) s t ∧ StackKept s t ∧ ControlKept s t ∧ t.out = s.out

/-- R150, R154: JMP completes in both its modes and changes PC alone: to the target, or, if the target is its own
index, to the next one. -/
def Obligations.JmpGoesToItsTarget : Prop :=
  ∀ m (a b : Byte) (s : State), (m = .regOnly ∨ m = .valOnly) →
    ∃ t, exec (.jmp m a b) s = .next t ∧
      t.get .pc = nextPc (s.get .pc) (operandValue s m b) ∧
      RegsKept (fun r => r = .pc) s t ∧ StackKept s t ∧ ControlKept s t ∧ t.out = s.out

/-- R151, R28: BE completes in both its modes and changes PC alone, taken exactly when ZF is 1, for every ZF byte. -/
def Obligations.BeBranchesWhenZfIsOne : Prop :=
  ∀ m (a b : Byte) (s : State), (m = .regOnly ∨ m = .valOnly) →
    ∃ t, exec (.be m a b) s = .next t ∧
      (s.get .zf = 1#8 → t.get .pc = nextPc (s.get .pc) (operandValue s m b)) ∧
      (s.get .zf ≠ 1#8 → t.get .pc = s.get .pc + 1#8) ∧
      RegsKept (fun r => r = .pc) s t ∧ StackKept s t ∧ ControlKept s t ∧ t.out = s.out

/-- R152, R28: BNE completes in both its modes and changes PC alone, taken exactly when ZF is not 1, for every ZF
byte. -/
def Obligations.BneBranchesWhenZfIsNotOne : Prop :=
  ∀ m (a b : Byte) (s : State), (m = .regOnly ∨ m = .valOnly) →
    ∃ t, exec (.bne m a b) s = .next t ∧
      (s.get .zf ≠ 1#8 → t.get .pc = nextPc (s.get .pc) (operandValue s m b)) ∧
      (s.get .zf = 1#8 → t.get .pc = s.get .pc + 1#8) ∧
      RegsKept (fun r => r = .pc) s t ∧ StackKept s t ∧ ControlKept s t ∧ t.out = s.out

/-- R160: PRINT completes in both its modes, appends the operand's value to the output trace, and changes nothing else
but PC, which advances. -/
def Obligations.PrintAppendsItsOperand : Prop :=
  ∀ m (a b : Byte) (s : State), (m = .regOnly ∨ m = .valOnly) →
    ∃ t, exec (.print m a b) s = .next t ∧ t.out = s.out ++ [operandValue s m b] ∧
      t.get .pc = s.get .pc + 1#8 ∧
      RegsKept (fun r => r = .pc) s t ∧ StackKept s t ∧ ControlKept s t

/-- R104: every instruction in a mode outside its allowed set ends the run in ABORT_MODE with (PC, op, mode) recorded,
and no register, stack byte or output changes. -/
def Obligations.IllegalModeAbortsBeforeAnyWrite : Prop :=
  ∀ (i : Instr) (s : State), Opcode.allows i.op i.mode = false →
    ∃ t, exec i s = .next t ∧ t.status = .abortMode ∧ t.diag = some (.illegalMode (s.get .pc) i.op i.mode) ∧
      RegsKept (fun _ => False) s t ∧ StackKept s t ∧ t.code = s.code ∧ t.out = s.out

/-- R105: a legal instruction runs its opcode's semantics; then PC is compared by value with its latched value and is
incremented modulo 256 if equal, and stays as written if not; all else is as the semantics left it. -/
def Obligations.PcAdvancesOnlyWhenItsValueIsUnchanged : Prop :=
  ∀ (i : Instr) (s : State), Opcode.allows i.op i.mode = true →
    ∃ t, exec i s = .next t ∧
      ((effect params i s).get .pc = s.get .pc → (t.get .pc).toNat = ((s.get .pc).toNat + 1) % 256) ∧
      ((effect params i s).get .pc ≠ s.get .pc → t.get .pc = (effect params i s).get .pc) ∧
      RegsKept (fun r => r = .pc) (effect params i s) t ∧ t.stack = (effect params i s).stack ∧
      ControlKept (effect params i s) t ∧ t.out = (effect params i s).out

/-- R142: from every SP, PUSH then POP into a register other than SP restores SP, leaves the pushed byte in the stack
byte at SP, and delivers it; PC as destination is left out of the delivery, since R105 may advance it. -/
def Obligations.PushThenPopReturnsThePushedValue : Prop :=
  ∀ m (a b a' b' : Byte) (s : State), (m = .regOnly ∨ m = .valOnly) → ¬ Names b' .sp →
    ∃ t u, exec (.push m a b) s = .next t ∧ exec (.pop .regOnly a' b') t = .next u ∧
      u.get .sp = s.get .sp ∧ (∀ r, Names b' r → r ≠ .pc → u.get r = operandValue s m b) ∧
      u.stackRead (s.get .sp) = operandValue s m b

/-! ### Flags and registers -/

/-- R27, R31 (whole bytes by identifier: 92 D7): after ADD, SUB or CMP each of the three flags is 0 or 1, and after CMP
exactly one of them is 1. -/
def Obligations.FlagLogicWritesZeroOrOneAndCmpExactlyOne : Prop :=
  ∀ (i : Instr) (s : State), (i.op = .add ∨ i.op = .sub ∨ i.op = .cmp) → (i.mode = .regReg ∨ i.mode = .regVal) →
    ∃ t, exec i s = .next t ∧
      (∀ r, r = .zf ∨ r = .cf ∨ r = .of → t.get r = 0#8 ∨ t.get r = 1#8) ∧
      (i.op = .cmp → (t.get .zf).toNat + (t.get .cf).toNat + (t.get .of).toNat = 1)

/-- R28, R29, R30, R242 (92 D19): no instruction but ADD, SUB and CMP changes a flag, except MOV, MUL and POP through a
destination identifier that names it. -/
def Obligations.OnlyAddSubCmpChangeFlagsAsASideEffect : Prop :=
  ∀ (i : Instr) (s t : State) (r : Reg), exec i s = .next t → (r = .zf ∨ r = .cf ∨ r = .of) →
    t.get r ≠ s.get r →
      i.op = .add ∨ i.op = .sub ∨ i.op = .cmp ∨ ((i.op = .mov ∨ i.op = .mul ∨ i.op = .pop) ∧ Names i.b r)

/-- R126 (92 D26, 90 C4, UNVERIFIED, log 4): the two sign rules give ADD and SUB the same flags on every operand pair
but one each: ADD(0x80, 0x80) and SUB(0x00, 0x80), where only OF differs. -/
def Obligations.SignRulesDifferOnOnePairEach : Prop :=
  ∀ v1 v2 : Byte,
    (addFlags .strict v1 v2 ≠ addFlags .signBit v1 v2 ↔ v1 = 0x80#8 ∧ v2 = 0x80#8) ∧
    (subFlags .strict v1 v2 ≠ subFlags .signBit v1 v2 ↔ v1 = 0x00#8 ∧ v2 = 0x80#8)

/-- R126 and 95 (V-ADD): under `SignBit`, ADD's and SUB's OF is conventional two's-complement overflow. -/
def Obligations.SignBitRuleIsConventionalOverflow : Prop :=
  ∀ v1 v2 : Byte,
    ((addFlags .signBit v1 v2).of = true ↔ (v1.toInt + v2.toInt < -128 ∨ 127 < v1.toInt + v2.toInt)) ∧
    ((subFlags .signBit v1 v2).of = true ↔ (v1.toInt - v2.toInt < -128 ∨ 127 < v1.toInt - v2.toInt))

/-- R21, R22 (the spec's choices 92 D2, D3; UNVERIFIED, logs 2 and 3): identifiers 0 to 8 name R0, R1, R2, PC, SP, BP,
ZF, CF, OF and read and write that register alone; every other identifier reads 0 and its write changes no state. -/
def Obligations.RegisterIdentifiersReadAndWriteTheirRegister : Prop :=
  (∀ (s : State) (id v : Byte) (r : Reg), Reg.all[id.toNat]? = some r →
    s.readId params id = s.get r ∧ (s.writeId params id v).get r = v ∧
    RegsKept (fun r' => r' = r) s (s.writeId params id v) ∧ (s.writeId params id v).stack = s.stack ∧
    ControlKept s (s.writeId params id v) ∧ (s.writeId params id v).out = s.out) ∧
  (∀ (s : State) (id v : Byte), 9 ≤ id.toNat → s.readId params id = 0#8 ∧ s.writeId params id v = s)

/-- R22 under `BAD_REG_POLICY = Fault` (92 D3, D31; which of two identifiers is named is free, DESIGN CHOICE, log 11):
for every parameters with that policy, a legal form with an out-of-range identifier aborts before any write with such
an identifier recorded, and a legal form without one does what it does under `Ignore`. -/
def Obligations.FaultPolicyAbortsOnUnnamedIdentifiers : Prop :=
  ∀ (p : Params) (i : Instr) (s : State), p.badRegPolicy = .fault → i.modeAllowed = true →
    ((∃ id ∈ Instr.identifiers i, namedReg p id = none) →
      ∃ t, execUnder p i s = .next t ∧ t.status = .abortMode ∧
        (∃ id ∈ Instr.identifiers i, namedReg p id = none ∧ t.diag = some (.badRegister (s.get .pc) i.op id)) ∧
        RegsKept (fun _ => False) s t ∧ StackKept s t ∧ t.code = s.code ∧ t.out = s.out) ∧
    ((∀ id ∈ Instr.identifiers i, namedReg p id ≠ none) →
      execUnder p i s = execUnder { p with badRegPolicy := .ignore } i s)

/-- R41, with R24, R25, R26, R28, R29, R30, R153: an instruction neither reads nor writes a register it neither names
nor uses implicitly: changing that register before changes the outcome in that register alone. By R41's implicit
columns these are R0, R1, R2 and BP beside any opcode, SP beside any but PUSH and POP, ZF beside any but ADD, SUB, CMP,
BE and BNE, and CF and OF beside any but ADD, SUB and CMP; every instruction uses PC (BP as an operand: 92 D28, log 22;
no other flag effects: 92 D19, log 20; both UNVERIFIED). -/
def Obligations.UnnamedRegistersPlayNoPart : Prop :=
  ∀ (i : Instr) (s : State) (r : Reg) (x : Byte), (∀ id ∈ Instr.identifiers i, ¬ Names id r) →
    ((r = .r0 ∨ r = .r1 ∨ r = .r2 ∨ r = .bp) ∨
      (r = .sp ∧ i.op ≠ .push ∧ i.op ≠ .pop) ∨
      (r = .zf ∧ i.op ≠ .add ∧ i.op ≠ .sub ∧ i.op ≠ .cmp ∧ i.op ≠ .be ∧ i.op ≠ .bne) ∨
      ((r = .cf ∨ r = .of) ∧ i.op ≠ .add ∧ i.op ≠ .sub ∧ i.op ≠ .cmp)) →
    ∃ t, exec i s = .next t ∧ t.get r = s.get r ∧ exec i (s.set r x) = .next (t.set r x)

/-! ### The step -/

/-- R50, R102: the word fetched is the four bytes at byte offset 4 × PC, the first most significant. -/
def Obligations.FetchAssemblesBigEndian : Prop :=
  ∀ (s : State) (b0 b1 b2 b3 : Byte) (rest : List Byte),
    s.code.drop (4 * (s.get .pc).toNat) = b0 :: b1 :: b2 :: b3 :: rest →
    ∃ w, s.fetch? = some w ∧
      w.toNat = b0.toNat * 2 ^ 24 + b1.toNat * 2 ^ 16 + b2.toNat * 2 ^ 8 + b3.toNat

/-- From RUNNING, when the bytes at PC decode to an instruction (R102, R76), the step is exec of it at that state, with
nothing around it. That nothing stands around exec is the model's own split of the loop, not the spec's (DEDUCED, log 9):
R106 puts the mode check before and the PC advance after `exec`, and this model puts both inside exec. -/
def Obligations.StepRunsTheDecodedInstruction : Prop :=
  ∀ (s : State) (i : Instr) (rest : List Byte), s.status = .running →
    decodeBytes (s.code.drop (4 * (s.get .pc).toNat)) = .ok (i, rest) → step s = exec i s

/-- R101 (offset exact: 92 D8): from RUNNING, past the last word, the step is HALT_END and no other state changes. -/
def Obligations.StepPastTheLastWordHalts : Prop :=
  ∀ s : State, s.status = .running → s.code.length < 4 * (s.get .pc).toNat + 4 →
    step s = .next { s with status := .haltEnd }

/-- R103, R201, R108 (state kept: 92 D27; the values 11 to 63: 92 D1): from RUNNING, a word whose first byte holds an
unknown opcode, whatever its mode bits, ends the run in HALT_BADOP with (PC, opcode) recorded and nothing else
changed. -/
def Obligations.StepOnUnknownOpcodeHalts : Prop :=
  ∀ (s : State) (b0 b1 b2 b3 : Byte) (rest : List Byte), s.status = .running →
    s.code.drop (4 * (s.get .pc).toNat) = b0 :: b1 :: b2 :: b3 :: rest → 11 ≤ b0.toNat / 4 →
    step s = .next { s with status := .haltBadop,
                            diag := some (.unknownOpcode (s.get .pc) (BitVec.ofNat 6 (b0.toNat / 4))) }

/-- R100, R111 (92 D11, D15; DEDUCED, log 8): a terminal status has no step. -/
def Obligations.TerminalStatusHasNoStep : Prop :=
  ∀ s : State, s.status ≠ .running → step s = .fault (.noStep s.status)

/-- R77, R110, R205: from RUNNING the step always answers a next state, whatever the image, the registers and the
stack hold, and under every parameters: no word and no operand makes the machine fault or refuse. -/
def Obligations.RunningStepAlwaysCompletes : Prop :=
  ∀ (p : Params) (s : State), s.status = .running → (∃ t, stepUnder p s = .next t) ∧ ∃ t, step s = .next t

/-- R208: a step that enters an error state changes nothing but the run status and the diagnostic record; PC keeps the
offending index and the instruction has no partial effect. -/
def Obligations.ErrorEntryIsPrecise : Prop :=
  ∀ s t : State, step s = .next t → t.EndedAbnormally →
    t.regs = s.regs ∧ StackKept s t ∧ t.code = s.code ∧ t.out = s.out ∧ ∃ d, t.diag = some d ∧ t.diagPc = some (s.get .pc)

/-- R33, R53: a step changes a stack byte only when it executes a legal PUSH, and then only the byte at SP. -/
def Obligations.OnlyPushChangesTheStack : Prop :=
  ∀ (s t : State) (k : Byte), step s = .next t → t.stackRead k ≠ s.stackRead k →
    k = s.get .sp ∧ ∃ m a b rest, (m = .regOnly ∨ m = .valOnly) ∧
      decodeBytes (s.code.drop (4 * (s.get .pc).toNat)) = .ok (.push m a b, rest)

/-- R162, R219: the output trace only grows; a step appends at most one value, and only when it executes a legal PRINT,
the value of its operand at the start of the step; the output transaction is that value. -/
def Obligations.OnlyPrintAppendsToTheTrace : Prop :=
  ∀ s t : State, step s = .next t →
    (t.out = s.out ∧ outTransaction s t = none) ∨
    (∃ m a b rest, (m = .regOnly ∨ m = .valOnly) ∧
      decodeBytes (s.code.drop (4 * (s.get .pc).toNat)) = .ok (.print m a b, rest) ∧
      t.out = s.out ++ [operandValue s m b] ∧ outTransaction s t = some (operandValue s m b))

/-! ### Reset, load, runs -/

/-- R42, R230, R231 (no image is loaded: DESIGN CHOICE, log 6): right after reset all registers are 0, every stack
byte reads as the arbitrary `STACK0` (92 D9), the status is RUNNING, the trace is empty, and there is no diagnostic
record. -/
def Obligations.ResetHoldsTheStatedValues : Prop :=
  (∀ r, State.reset.get r = 0#8) ∧ (∀ i, State.reset.stackRead i = Config.stack0 i) ∧
  State.reset.status = .running ∧ State.reset.out = [] ∧ State.reset.diag = none

/-- R203, R236, R237 (92 D16, D17; other fields of a rejected load: DESIGN CHOICE, log 7): an unreadable image or one
whose length is no multiple of 4 is rejected and has no step; every other image, of any length, is loaded whole into
the reset state. -/
def Obligations.LoadAcceptsExactlyWholeWords : Prop :=
  ((State.load none).status = .loadRejected ∧ step (State.load none) = .fault (.noStep .loadRejected)) ∧
  (∀ image : List Byte, image.length % 4 ≠ 0 → (State.load (some image)).status = .loadRejected ∧
    step (State.load (some image)) = .fault (.noStep .loadRejected)) ∧
  (∀ image : List Byte, image.length % 4 = 0 →
    State.load (some image) = { State.reset with code := image })

/-- The invariant holds right after reset. -/
def Obligations.InvariantHoldsAtReset : Prop := State.reset.Inv params

/-- Every step keeps the invariant and the code image (R61), under every parameters and from every state that has the
invariant, reachable or not: the stack's canonical form, an image of whole words (R35), no diagnostic while RUNNING
(R40), HALT_END only past the last word (R101), and in HALT_BADOP and ABORT_MODE a record that names the word PC still
selects (R103, R104, R22). The second clause says it of the machine's own step. -/
def Obligations.EveryStepKeepsTheInvariant : Prop :=
  (∀ (p : Params) (s t : State), s.Inv p → stepUnder p s = .next t → t.Inv p ∧ t.code = s.code) ∧
  (∀ s t : State, s.Inv params → step s = .next t → t.Inv params ∧ t.code = s.code)

/-- R61, R112: in every run of every accepted image, of every length, under every parameters, the image is never
changed and the invariant holds, so a run that ends abnormally has PC at the offending word and the record naming it. -/
def Obligations.EveryRunOfALoadedImageKeepsTheInvariant : Prop :=
  ∀ (p : Params) (image : List Byte), imageAccepted image = true → ∀ (k : Nat) (t : State),
    Host.Core.run { State := State, Fault := Fault, Refusal := Refusal, step := stepUnder p, reset := State.reset } k
      (State.load (some image)) = .next t →
    t.Inv p ∧ t.code = image ∧ (t.EndedAbnormally → ∃ w, t.fetch? = some w ∧ t.diagPc = some (t.get .pc))

/-! ### The host's view -/

/-- R204, R212, R219 (the spec's choices 92 D11, D12, D14; UNVERIFIED, log 13): status codes and exit statuses, under
every parameters; distinct statuses have distinct codes. -/
def Obligations.StatusCodesAndExitStatuses : Prop :=
  (RunStatus.code .haltEnd = 0#3 ∧ RunStatus.code .haltBadop = 1#3 ∧ RunStatus.code .abortMode = 2#3 ∧
    RunStatus.code .loadRejected = 3#3 ∧ RunStatus.code .running = 4#3) ∧
  (∀ p : Params, RunStatus.exitStatus p .haltEnd = some 0 ∧
    RunStatus.exitStatus p .haltBadop = some p.badopExitStatus ∧
    RunStatus.exitStatus p .abortMode = some p.abortExitStatus ∧ RunStatus.exitStatus p .loadRejected = some 1 ∧
    RunStatus.exitStatus p .running = none) ∧
  params.badopExitStatus = 0 ∧ params.abortExitStatus = 1

/-- R219 with R40 (signals taken from the offending word: DEDUCED, log 14): in a state with the invariant, an ended run's
diagnostic signals agree with its record: PC, opcode field, mode field. -/
def Obligations.DiagnosticSignalsAgreeWithTheRecord : Prop :=
  ∀ s : State, s.Inv params →
    (s.status = .haltBadop → ∃ opc, s.diag = some (.unknownOpcode (s.get .pc) opc) ∧
      s.diagPc = some (s.get .pc) ∧ s.diagOpcode = some opc ∧ s.diagMode = none ∧ s.diagReg = none) ∧
    (s.status = .abortMode → ∃ op m, s.diag = some (.illegalMode (s.get .pc) op m) ∧
      s.diagPc = some (s.get .pc) ∧ s.diagOpcode = some (defaultOpcodeOf op) ∧ s.diagMode = some m.bits ∧
      s.diagReg = none)

/-- R161 (shortest form and LF: 92 D13, 93 G1, G2; PRESUMED, log 23): a value's line is its decimal digits in ASCII, most
significant first, without a leading zero, then one line feed. -/
def Obligations.RenderedLineIsTheShortestDecimal : Prop :=
  ∀ v : Byte, ∃ ds : List Nat, renderLine v = ds.map (fun d => BitVec.ofNat 8 (48 + d)) ++ [10#8] ∧
    (∀ d ∈ ds, d < 10) ∧ ds ≠ [] ∧ (1 < ds.length → ds.head? ≠ some 0) ∧ Nat.ofDigits 10 ds.reverse = v.toNat
end

