-- ==== Sys2Proof/Laws/Decode.lean ====
section
/-! SUPPORT. The laws of decoder and encoder: the fields of an encoded word, the opcode map, bytes and words. -/

namespace Sys2Proof

@[simp] theorem Instr.build_op (op : Opcode) (m : Mode) (a b : Byte) : (Instr.build op m a b).op = op := by
  cases op <;> rfl
@[simp] theorem Instr.build_mode (op : Opcode) (m : Mode) (a b : Byte) : (Instr.build op m a b).mode = m := by
  cases op <;> rfl
@[simp] theorem Instr.build_a (op : Opcode) (m : Mode) (a b : Byte) : (Instr.build op m a b).a = a := by
  cases op <;> rfl
@[simp] theorem Instr.build_b (op : Opcode) (m : Mode) (a b : Byte) : (Instr.build op m a b).b = b := by
  cases op <;> rfl
@[simp] theorem Instr.build_self (i : Instr) : Instr.build i.op i.mode i.a i.b = i := by
  cases i <;> rfl

@[simp] theorem Mode.ofBits_bits (m : Mode) : Mode.ofBits m.bits = m := by
  cases m <;> rfl

theorem Mode.bits_ofBits (b : BitVec 2) : (Mode.ofBits b).bits = b := by
  revert b; decide

/-- Under an injective map every opcode value names its opcode. -/
theorem opcodeNamed_opcodeOf {f : Opcode → BitVec 6} (h : Function.Injective f) (op : Opcode) :
    opcodeNamed f (f op) = some op := by
  have ne : ∀ x y : Opcode, x ≠ y → (f x == f y) = false := fun x y hxy => by
    simpa using fun e => hxy (h e)
  cases op <;> simp [opcodeNamed, Opcode.all, List.find?, ne]

/-- A named opcode's value is the field it was named by. -/
theorem opcodeOf_of_opcodeNamed {f : Opcode → BitVec 6} {opc : BitVec 6} {op : Opcode}
    (h : opcodeNamed f opc = some op) : f op = opc := by
  simpa using List.find?_some h

/-- A field is unknown exactly when no opcode has it. -/
theorem opcodeNamed_eq_none {f : Opcode → BitVec 6} {opc : BitVec 6} :
    opcodeNamed f opc = none ↔ ∀ op, f op ≠ opc := by
  constructor
  · intro h op
    have := List.find?_eq_none.mp h op (by cases op <;> decide)
    simpa using this
  · intro h
    exact List.find?_eq_none.mpr fun op _ => by simpa using h op

theorem defaultOpcodeOf_injective : Function.Injective defaultOpcodeOf := by
  intro x y; cases x <;> cases y <;> decide

/-! ### The fields of an encoded word (R71, R84) -/

theorem opcodeField_encodeUnder (f : Opcode → BitVec 6) (i : Instr) : opcodeField (encodeUnder f i) = f i.op := by
  apply BitVec.eq_of_getLsbD_eq
  intro k hk
  simp only [opcodeField, encodeUnder, BitVec.getLsbD_extractLsb', BitVec.getLsbD_append, hk]
  interval_cases k <;> simp

theorem modeField_encodeUnder (f : Opcode → BitVec 6) (i : Instr) : modeField (encodeUnder f i) = i.mode.bits := by
  apply BitVec.eq_of_getLsbD_eq
  intro k hk
  simp only [modeField, encodeUnder, BitVec.getLsbD_extractLsb', BitVec.getLsbD_append, hk]
  interval_cases k <;> simp

theorem unusedField_encodeUnder (f : Opcode → BitVec 6) (i : Instr) :
    (encodeUnder f i).extractLsb' 16 8 = 0#8 := by
  apply BitVec.eq_of_getLsbD_eq
  intro k hk
  simp only [encodeUnder, BitVec.getLsbD_extractLsb', BitVec.getLsbD_append, hk]
  interval_cases k <;> simp

theorem aField_encodeUnder (f : Opcode → BitVec 6) (i : Instr) :
    aField (encodeUnder f i) = if i.mode.usesA then i.a else 0#8 := by
  apply BitVec.eq_of_getLsbD_eq
  intro k hk
  simp only [aField, encodeUnder, BitVec.getLsbD_extractLsb', BitVec.getLsbD_append, hk]
  interval_cases k <;> simp

theorem bField_encodeUnder (f : Opcode → BitVec 6) (i : Instr) : bField (encodeUnder f i) = i.b := by
  apply BitVec.eq_of_getLsbD_eq
  intro k hk
  simp only [bField, encodeUnder, BitVec.getLsbD_extractLsb', BitVec.getLsbD_append, hk]
  interval_cases k <;> simp

/-! ### Words and bytes (R50) -/

@[simp] theorem wordBytes_length (w : Word) : (wordBytes w).length = 4 := rfl

/-- A stored word is read back, whatever follows it. -/
theorem takeWord_wordBytes (w : Word) (rest : List Byte) : takeWord (wordBytes w ++ rest) = some (w, rest) := by
  have : w.extractLsb' 24 8 ++ w.extractLsb' 16 8 ++ w.extractLsb' 8 8 ++ w.extractLsb' 0 8 = w := by
    apply BitVec.eq_of_getLsbD_eq
    intro k hk
    simp only [BitVec.getLsbD_extractLsb', BitVec.getLsbD_append]
    interval_cases k <;> simp
  simp only [wordBytes, List.cons_append, List.nil_append, takeWord, this]

/-- A word is there exactly when four bytes are. -/
theorem takeWord_eq_none (bs : List Byte) : takeWord bs = none ↔ bs.length < 4 := by
  rcases bs with _ | ⟨_, _ | ⟨_, _ | ⟨_, _ | ⟨_, _⟩⟩⟩⟩ <;> simp [takeWord]

end Sys2Proof
end

