-- ==== Sys2Proof/Laws/State.lean ====
section
/-! SUPPORT. One lemma per field per update of State, so that no later proof unfolds a record update. -/

namespace Sys2Proof.Machine

/-! ### Registers read after each update -/

theorem State.get_set (s : State) (r r' : Reg) (v : Byte) :
    (s.set r v).get r' = if r' = r then v else s.get r' := by
  cases r <;> cases r' <;> rfl

@[simp] theorem State.get_set_same (s : State) (r : Reg) (v : Byte) : (s.set r v).get r = v := by
  simp [State.get_set]

@[simp] theorem State.get_set_ne (s : State) {r r' : Reg} (v : Byte) (h : r' ≠ r) :
    (s.set r v).get r' = s.get r' := by
  simp [State.get_set, h]

@[simp] theorem State.get_stackWrite (s : State) (i v : Byte) (r : Reg) : (s.stackWrite i v).get r = s.get r := by
  cases r <;> rfl

@[simp] theorem State.get_emit (s : State) (v : Byte) (r : Reg) : (s.emit v).get r = s.get r := by
  cases r <;> rfl

@[simp] theorem State.get_haltEnd (s : State) (r : Reg) : s.haltEnd.get r = s.get r := by
  cases r <;> rfl

@[simp] theorem State.get_raise (s : State) (o : RunStatus) (d : Diag) (r : Reg) :
    (s.raise o d).get r = s.get r := by
  cases r <;> rfl

/-- Two register files that agree at every register are equal. -/
theorem State.regs_ext {s t : State} (h : ∀ r, s.get r = t.get r) : s.regs = t.regs := by
  have := h .r0; have := h .r1; have := h .r2; have := h .pc; have := h .sp
  have := h .bp; have := h .zf; have := h .cf; have := h .of
  cases hs : s.regs; cases ht : t.regs
  simp_all [State.get]

/-! ### `set` -/

@[simp] theorem State.set_stack (s : State) (r : Reg) (v : Byte) : (s.set r v).stack = s.stack := rfl
@[simp] theorem State.set_code (s : State) (r : Reg) (v : Byte) : (s.set r v).code = s.code := rfl
@[simp] theorem State.set_status (s : State) (r : Reg) (v : Byte) : (s.set r v).status = s.status := rfl
@[simp] theorem State.set_out (s : State) (r : Reg) (v : Byte) : (s.set r v).out = s.out := rfl
@[simp] theorem State.set_diag (s : State) (r : Reg) (v : Byte) : (s.set r v).diag = s.diag := rfl
@[simp] theorem State.set_stackRead (s : State) (r : Reg) (v i : Byte) : (s.set r v).stackRead i = s.stackRead i := rfl

/-! ### `stackWrite` -/

@[simp] theorem State.stackWrite_regs (s : State) (i v : Byte) : (s.stackWrite i v).regs = s.regs := rfl
@[simp] theorem State.stackWrite_stack (s : State) (i v : Byte) :
    (s.stackWrite i v).stack = Memory.put s.stack i.toNat v := rfl
@[simp] theorem State.stackWrite_code (s : State) (i v : Byte) : (s.stackWrite i v).code = s.code := rfl
@[simp] theorem State.stackWrite_status (s : State) (i v : Byte) : (s.stackWrite i v).status = s.status := rfl
@[simp] theorem State.stackWrite_out (s : State) (i v : Byte) : (s.stackWrite i v).out = s.out := rfl
@[simp] theorem State.stackWrite_diag (s : State) (i v : Byte) : (s.stackWrite i v).diag = s.diag := rfl

/-! ### `emit` -/

@[simp] theorem State.emit_regs (s : State) (v : Byte) : (s.emit v).regs = s.regs := rfl
@[simp] theorem State.emit_stack (s : State) (v : Byte) : (s.emit v).stack = s.stack := rfl
@[simp] theorem State.emit_code (s : State) (v : Byte) : (s.emit v).code = s.code := rfl
@[simp] theorem State.emit_status (s : State) (v : Byte) : (s.emit v).status = s.status := rfl
@[simp] theorem State.emit_out (s : State) (v : Byte) : (s.emit v).out = s.out ++ [v] := rfl
@[simp] theorem State.emit_diag (s : State) (v : Byte) : (s.emit v).diag = s.diag := rfl
@[simp] theorem State.emit_stackRead (s : State) (v i : Byte) : (s.emit v).stackRead i = s.stackRead i := rfl

/-! ### `haltEnd` -/

@[simp] theorem State.haltEnd_regs (s : State) : s.haltEnd.regs = s.regs := rfl
@[simp] theorem State.haltEnd_stack (s : State) : s.haltEnd.stack = s.stack := rfl
@[simp] theorem State.haltEnd_code (s : State) : s.haltEnd.code = s.code := rfl
@[simp] theorem State.haltEnd_status (s : State) : s.haltEnd.status = .haltEnd := rfl
@[simp] theorem State.haltEnd_out (s : State) : s.haltEnd.out = s.out := rfl
@[simp] theorem State.haltEnd_diag (s : State) : s.haltEnd.diag = s.diag := rfl

/-! ### `raise` -/

@[simp] theorem State.raise_regs (s : State) (o : RunStatus) (d : Diag) : (s.raise o d).regs = s.regs := rfl
@[simp] theorem State.raise_stack (s : State) (o : RunStatus) (d : Diag) : (s.raise o d).stack = s.stack := rfl
@[simp] theorem State.raise_code (s : State) (o : RunStatus) (d : Diag) : (s.raise o d).code = s.code := rfl
@[simp] theorem State.raise_status (s : State) (o : RunStatus) (d : Diag) : (s.raise o d).status = o := rfl
@[simp] theorem State.raise_out (s : State) (o : RunStatus) (d : Diag) : (s.raise o d).out = s.out := rfl
@[simp] theorem State.raise_diag (s : State) (o : RunStatus) (d : Diag) : (s.raise o d).diag = some d := rfl

/-! ### What a fetch depends on -/

/-- A fetch reads the code image and PC only. -/
theorem State.fetch?_congr {s t : State} (hc : t.code = s.code) (hp : t.get .pc = s.get .pc) :
    t.fetch? = s.fetch? := by
  simp [State.fetch?, State.fetchOffset, hc, hp]

end Sys2Proof.Machine
end

