-- ==== Sys2Proof/Laws/Memory.lean ====
section
/-! SUPPORT. The laws of the stack (20_memory.md R53): read after write, and the canonical form kept by every memory
operation. -/

namespace Sys2Proof.Machine

/-- Read after write: the written byte, and every other byte as before. -/
theorem Memory.get?_put (m : Memory) (i j : Nat) (v : Byte) :
    Memory.get? (Memory.put m i v) j = if j = i then some v else Memory.get? m j := by
  induction m with
  | nil => simp [Memory.put, Memory.get?]
  | cons c m ih =>
    obtain ⟨k, u⟩ := c
    simp only [Memory.put]
    split
    · simp [Memory.get?]
    · split
      · subst_vars; simp only [Memory.get?]; split <;> simp_all
      · simp only [Memory.get?, ih]; split <;> simp_all; omega

/-- A written memory lists the written cell and cells it listed before. -/
theorem Memory.mem_put {m : Memory} {i : Nat} {v : Byte} {c : Host.Cell} (h : c ∈ Memory.put m i v) :
    c = (i, v) ∨ c ∈ m := by
  induction m with
  | nil => simpa [Memory.put] using h
  | cons d m ih =>
    obtain ⟨k, u⟩ := d
    simp only [Memory.put] at h
    split at h
    · simpa using h
    · split at h
      · rcases List.mem_cons.mp h with h | h
        · exact .inl h
        · exact .inr (List.mem_cons_of_mem _ h)
      · rcases List.mem_cons.mp h with h | h
        · exact .inr (h ▸ List.mem_cons_self)
        · exact (ih h).imp id (List.mem_cons_of_mem _)

/-- A write keeps the rising order. -/
theorem Memory.put_sorted {m : Memory} (i : Nat) (v : Byte) (h : m.Pairwise (fun x y => x.1 < y.1)) :
    (Memory.put m i v).Pairwise (fun x y => x.1 < y.1) := by
  induction m with
  | nil => simp [Memory.put]
  | cons d m ih =>
    obtain ⟨k, u⟩ := d
    obtain ⟨hk, hm⟩ := List.pairwise_cons.mp h
    simp only [Memory.put]
    split
    · refine List.pairwise_cons.mpr ⟨fun c hc => ?_, h⟩
      rcases List.mem_cons.mp hc with rfl | hc
      · assumption
      · exact Nat.lt_trans ‹i < k› (hk c hc)
    · split
      · subst_vars; exact List.pairwise_cons.mpr ⟨hk, hm⟩
      · refine List.pairwise_cons.mpr ⟨fun c hc => ?_, ih hm⟩
        rcases Memory.mem_put hc with rfl | hc
        · change k < i; omega
        · exact hk c hc

/-- The empty stack of reset is canonical. -/
theorem Memory.wf_nil : Memory.wf [] := by simp [Memory.wf]

/-- Every write inside the stack keeps the canonical form. -/
theorem Memory.put_wf {m : Memory} (i v : Byte) (h : Memory.wf m) : Memory.wf (Memory.put m i.toNat v) := by
  refine ⟨Memory.put_sorted _ _ h.1, fun c hc => ?_⟩
  rcases Memory.mem_put hc with rfl | hc
  · exact i.isLt
  · exact h.2 c hc

/-- `stackWrite` then `stackRead` (R53). -/
theorem State.stackRead_stackWrite (s : State) (i v j : Byte) :
    (s.stackWrite i v).stackRead j = if j = i then v else s.stackRead j := by
  simp only [State.stackRead, State.stackWrite_stack, Memory.get?_put]
  by_cases h : j = i
  · simp [h]
  · have : j.toNat ≠ i.toNat := fun e => h (BitVec.eq_of_toNat_eq e)
    simp [h, this]

end Sys2Proof.Machine
end

