-- ==== Sys2Proof/Laws/Operands.lean ====
section
/-! SUPPORT. The laws of register identifiers, of the flag write, of the PC advance and of the frame every instruction
runs in. -/

namespace Sys2Proof.Machine

/-! ### The parameters of this machine -/

@[simp] theorem params_opcodeOf : params.opcodeOf = defaultOpcodeOf := rfl
@[simp] theorem params_badRegPolicy : params.badRegPolicy = .ignore := rfl
@[simp] theorem params_ofSignRule : params.ofSignRule = .strict := rfl

/-! ### Identifiers -/

/-- An injective map names each register by its own identifier. -/
theorem namedReg_regIdOf {p : Params} (h : Function.Injective p.regIdOf) (r : Reg) :
    namedReg p (p.regIdOf r) = some r := by
  have ne : ∀ r r' : Reg, r ≠ r' → (p.regIdOf r == p.regIdOf r') = false := fun r r' hr => by
    simpa using fun e => hr (h e)
  cases r <;> simp [namedReg, Reg.all, List.find?, ne]

/-- A named register's identifier is the one it was named by. -/
theorem regIdOf_of_namedReg {p : Params} {id : Byte} {r : Reg} (h : namedReg p id = some r) : p.regIdOf r = id := by
  simpa using List.find?_some h

theorem State.readId_named (s : State) {p : Params} {id : Byte} {r : Reg} (h : namedReg p id = some r) :
    s.readId p id = s.get r := by
  simp [State.readId, h]

theorem State.readId_unnamed (s : State) {p : Params} {id : Byte} (h : namedReg p id = none) :
    s.readId p id = 0#8 := by
  simp [State.readId, h]

theorem State.get_writeId (s : State) (p : Params) (id v : Byte) (r : Reg) :
    (s.writeId p id v).get r = if namedReg p id = some r then v else s.get r := by
  simp only [State.writeId]
  cases h : namedReg p id with
  | none => simp
  | some r' => simp only [State.get_set, Option.some.injEq, eq_comm]

@[simp] theorem State.writeId_stack (s : State) (p : Params) (id v : Byte) : (s.writeId p id v).stack = s.stack := by
  simp only [State.writeId]; split <;> rfl
@[simp] theorem State.writeId_code (s : State) (p : Params) (id v : Byte) : (s.writeId p id v).code = s.code := by
  simp only [State.writeId]; split <;> rfl
@[simp] theorem State.writeId_status (s : State) (p : Params) (id v : Byte) :
    (s.writeId p id v).status = s.status := by
  simp only [State.writeId]; split <;> rfl
@[simp] theorem State.writeId_out (s : State) (p : Params) (id v : Byte) : (s.writeId p id v).out = s.out := by
  simp only [State.writeId]; split <;> rfl
@[simp] theorem State.writeId_diag (s : State) (p : Params) (id v : Byte) : (s.writeId p id v).diag = s.diag := by
  simp only [State.writeId]; split <;> rfl
@[simp] theorem State.writeId_stackRead (s : State) (p : Params) (id v i : Byte) :
    (s.writeId p id v).stackRead i = s.stackRead i := by
  simp only [State.writeId]; split <;> rfl

/-! ### Flags -/

@[simp] theorem State.setFlags_zf (s : State) (f : FlagBits) : (s.setFlags f).get .zf = flagByte f.zf := rfl
@[simp] theorem State.setFlags_cf (s : State) (f : FlagBits) : (s.setFlags f).get .cf = flagByte f.cf := rfl
@[simp] theorem State.setFlags_of (s : State) (f : FlagBits) : (s.setFlags f).get .of = flagByte f.of := rfl

theorem State.get_setFlags (s : State) (f : FlagBits) {r : Reg} (hz : r ≠ .zf) (hc : r ≠ .cf) (ho : r ≠ .of) :
    (s.setFlags f).get r = s.get r := by
  simp [State.setFlags, hz, hc, ho]

@[simp] theorem State.setFlags_stack (s : State) (f : FlagBits) : (s.setFlags f).stack = s.stack := rfl
@[simp] theorem State.setFlags_code (s : State) (f : FlagBits) : (s.setFlags f).code = s.code := rfl
@[simp] theorem State.setFlags_status (s : State) (f : FlagBits) : (s.setFlags f).status = s.status := rfl
@[simp] theorem State.setFlags_out (s : State) (f : FlagBits) : (s.setFlags f).out = s.out := rfl
@[simp] theorem State.setFlags_diag (s : State) (f : FlagBits) : (s.setFlags f).diag = s.diag := rfl
@[simp] theorem State.setFlags_stackRead (s : State) (f : FlagBits) (i : Byte) :
    (s.setFlags f).stackRead i = s.stackRead i := rfl

/-- The explicit reading of R9 is the library's signed value. -/
theorem s8_eq_toInt (v : Byte) : s8 v = v.toInt := by
  simp only [s8, BitVec.toInt]
  have := v.isLt
  split <;> split <;> omega

/-! ### The PC advance (R105) -/

theorem State.advance_pc (t : State) (pre : Byte) :
    (t.advance pre).get .pc = if t.get .pc = pre then pre + 1#8 else t.get .pc := by
  simp only [State.advance]
  split <;> simp_all

theorem State.advance_get (t : State) (pre : Byte) {r : Reg} (h : r ≠ .pc) : (t.advance pre).get r = t.get r := by
  simp only [State.advance]
  split <;> simp [h]

@[simp] theorem State.advance_stack (t : State) (pre : Byte) : (t.advance pre).stack = t.stack := by
  simp only [State.advance]; split <;> rfl
@[simp] theorem State.advance_code (t : State) (pre : Byte) : (t.advance pre).code = t.code := by
  simp only [State.advance]; split <;> rfl
@[simp] theorem State.advance_status (t : State) (pre : Byte) : (t.advance pre).status = t.status := by
  simp only [State.advance]; split <;> rfl
@[simp] theorem State.advance_out (t : State) (pre : Byte) : (t.advance pre).out = t.out := by
  simp only [State.advance]; split <;> rfl
@[simp] theorem State.advance_diag (t : State) (pre : Byte) : (t.advance pre).diag = t.diag := by
  simp only [State.advance]; split <;> rfl
@[simp] theorem State.advance_stackRead (t : State) (pre i : Byte) : (t.advance pre).stackRead i = t.stackRead i := by
  simp only [State.advance]; split <;> rfl

/-! ### The frame of an instruction -/

/-- Under the Ignore policy no identifier ends a run. -/
theorem badIdentifier_ignore {p : Params} (h : p.badRegPolicy = .ignore) (i : Instr) : badIdentifier p i = none := by
  simp [badIdentifier, h]

/-- What the Fault policy aborts on is one of the instruction's identifiers, and names no register. -/
theorem badIdentifier_some {p : Params} {i : Instr} {id : Byte} (h : badIdentifier p i = some id) :
    p.badRegPolicy = .fault ∧ id ∈ Instr.identifiers i ∧ namedReg p id = none := by
  cases hp : p.badRegPolicy with
  | ignore => simp [badIdentifier, hp] at h
  | fault =>
    have key : ∀ x, x ∈ (Instr.identifiers i).filter (fun id => (namedReg p id).isNone) →
        x ∈ Instr.identifiers i ∧ namedReg p x = none := fun x hx => by
      simpa using hx
    simp only [badIdentifier, hp] at h
    split at h
    · simp at h
    · next x e => cases h; exact ⟨rfl, key _ (by simp [e])⟩
    · next x y l e =>
      refine ⟨rfl, key _ ?_⟩
      cases h
      split <;> simp [e]

/-- Everything `complete` can answer. -/
theorem complete_cases {p : Params} {i : Instr} {s t : State} {o : Host.Outcome State Fault Refusal}
    (h : complete p i s t = o) :
    (i.modeAllowed = true ∧ badIdentifier p i = none ∧ o = .next (t.advance (s.get .pc))) ∨
    (i.modeAllowed = true ∧ ∃ id, badIdentifier p i = some id ∧ o = .next (s.raiseBadRegister i.op id)) ∨
    (i.modeAllowed = false ∧ o = .next (s.raiseIllegalMode i.op i.mode)) := by
  subst h
  unfold complete
  by_cases hm : i.modeAllowed = true
  · cases hb : badIdentifier p i with
    | none => simp [hm]
    | some id => simp [hm]
  · simp [hm]

/-- A legal form completes when no identifier ends the run. -/
theorem complete_of_allowed {p : Params} {i : Instr} (s t : State) (hm : i.modeAllowed = true)
    (hb : badIdentifier p i = none) : complete p i s t = .next (t.advance (s.get .pc)) := by
  simp [complete, hm, hb]

end Sys2Proof.Machine
end

