-- ==== Sys2Proof/Laws/Exec.lean ====
section
/-! SUPPORT. The executor said once: `exec` is `complete` around the opcode's effect, and what no effect touches. -/

namespace Sys2Proof.Machine

/-- The default parameters are what R21, R78 and R212 ask for. -/
theorem params_wf : params.Wf :=
  ⟨defaultOpcodeOf_injective, fun x y => by cases x <;> cases y <;> decide, by decide⟩

/-- The machine's executor is the parametric one at the defaults. -/
theorem exec_eq_execUnder (i : Instr) (s : State) : exec i s = execUnder params i s := by
  cases i <;> rfl

/-- A legal form's answer (R105). -/
theorem exec_of_allowed {i : Instr} (s : State) (hm : i.modeAllowed = true) :
    exec i s = .next ((effect params i s).advance (s.get .pc)) := by
  rw [exec_eq_execUnder, execUnder, complete_of_allowed _ _ hm (badIdentifier_ignore rfl i)]

/-- The two-operand opcodes allow both two-operand modes (R79). -/
theorem modeAllowed_two {i : Instr}
    (ho : i.op = .mov ∨ i.op = .add ∨ i.op = .sub ∨ i.op = .mul ∨ i.op = .cmp)
    (hm : i.mode = .regReg ∨ i.mode = .regVal) : i.modeAllowed = true := by
  unfold Instr.modeAllowed
  rcases ho with h | h | h | h | h <;> rcases hm with h' | h' <;> rw [h, h'] <;> rfl

/-- The one-operand opcodes but POP allow both one-operand modes (R79). -/
theorem modeAllowed_one {i : Instr}
    (ho : i.op = .push ∨ i.op = .jmp ∨ i.op = .be ∨ i.op = .bne ∨ i.op = .print)
    (hm : i.mode = .regOnly ∨ i.mode = .valOnly) : i.modeAllowed = true := by
  unfold Instr.modeAllowed
  rcases ho with h | h | h | h | h <;> rcases hm with h' | h' <;> rw [h, h'] <;> rfl

/-- Everything the parametric executor can answer. -/
theorem execUnder_cases {p : Params} {i : Instr} {s : State} {o : Host.Outcome State Fault Refusal}
    (h : execUnder p i s = o) :
    (i.modeAllowed = true ∧ badIdentifier p i = none ∧ o = .next ((effect p i s).advance (s.get .pc))) ∨
    (i.modeAllowed = true ∧ ∃ id, badIdentifier p i = some id ∧ o = .next (s.raiseBadRegister i.op id)) ∨
    (i.modeAllowed = false ∧ o = .next (s.raiseIllegalMode i.op i.mode)) :=
  complete_cases h

/-- No instruction writes the code image (R61). -/
@[simp] theorem effect_code (p : Params) (i : Instr) (s : State) : (effect p i s).code = s.code := by
  cases i <;> simp [effect, movEffect, addEffect, subEffect, mulEffect, cmpEffect, pushEffect, popEffect, jmpEffect,
    beEffect, bneEffect, printEffect] <;> split <;> simp

/-- No opcode's effect changes the run status. -/
@[simp] theorem effect_status (p : Params) (i : Instr) (s : State) : (effect p i s).status = s.status := by
  cases i <;> simp [effect, movEffect, addEffect, subEffect, mulEffect, cmpEffect, pushEffect, popEffect, jmpEffect,
    beEffect, bneEffect, printEffect] <;> split <;> simp

/-- No opcode's effect writes the diagnostic record. -/
@[simp] theorem effect_diag (p : Params) (i : Instr) (s : State) : (effect p i s).diag = s.diag := by
  cases i <;> simp [effect, movEffect, addEffect, subEffect, mulEffect, cmpEffect, pushEffect, popEffect, jmpEffect,
    beEffect, bneEffect, printEffect] <;> split <;> simp

/-- Only PUSH writes the stack (R33). -/
theorem effect_stack (p : Params) (i : Instr) (s : State) :
    (effect p i s).stack = s.stack ∨ ∃ k v : Byte, (effect p i s).stack = Memory.put s.stack k.toNat v := by
  cases i with
  | push m a b => exact .inr ⟨s.get .sp, s.resolve p m a b, rfl⟩
  | be m a b => left; simp only [effect, beEffect]; split <;> rfl
  | bne m a b => left; simp only [effect, bneEffect]; split <;> rfl
  | _ => left; simp [effect, movEffect, addEffect, subEffect, mulEffect, cmpEffect, popEffect, jmpEffect, printEffect]

/-- Only PRINT writes the output trace (R162). -/
theorem effect_out (p : Params) (i : Instr) (s : State) :
    (effect p i s).out = if i.op = .print then s.out ++ [s.resolve p i.mode i.a i.b] else s.out := by
  cases i with
  | be m a b => simp only [effect, beEffect]; split <;> rfl
  | bne m a b => simp only [effect, bneEffect]; split <;> rfl
  | _ => simp [effect, movEffect, addEffect, subEffect, mulEffect, cmpEffect, pushEffect, popEffect, jmpEffect,
      printEffect, Instr.op, Instr.mode, Instr.a, Instr.b]

end Sys2Proof.Machine
end

