-- ==== Sys2Proof/Laws/Flags.lean ====
section
/-! SUPPORT. The arithmetic of ADD, SUB and MUL as byte arithmetic modulo 256, and the values a flag is written with. -/

namespace Sys2Proof.Machine

/-- ADD's result through the 16-bit intermediate is the byte sum (R121, R125). -/
theorem addResult_eq (x y : Byte) : addResult x y = x + y := by
  apply BitVec.eq_of_toNat_eq
  simp [addResult, u8, addWide, zext16]

/-- SUB's result through the 16-bit intermediate is the byte difference (R122, R125). -/
theorem subResult_eq (x y : Byte) : subResult x y = x - y := by
  apply BitVec.eq_of_toNat_eq
  have := x.isLt
  have := y.isLt
  simp [subResult, u8, zext16]
  omega

/-- MUL's result through the 16-bit intermediate is the low byte of the exact product (R123, R125). -/
theorem mulResult_eq (x y : Byte) : mulResult x y = BitVec.ofNat 8 (x.toNat * y.toNat) := by
  apply BitVec.eq_of_toNat_eq
  simp [mulResult, u8, zext16]

/-- The sum before truncation never overflows the intermediate (R125). -/
theorem addWide_toNat (x y : Byte) : (addWide x y).toNat = x.toNat + y.toNat := by
  have := x.isLt
  have := y.isLt
  simp [addWide, zext16]
  omega

/-- The flag logic writes 0 or 1 (R27). -/
theorem flagByte_zero_or_one (c : Bool) : flagByte c = 0#8 ∨ flagByte c = 1#8 := by
  cases c <;> decide

/-- The sign bit of R126 is the sign of the signed reading. -/
theorem signBit_eq (v : Byte) : v.getLsbD 7 = decide (v.toInt < 0) := by
  revert v; decide

end Sys2Proof.Machine
end

