-- ==== Sys2Proof/Laws/PerInstr.lean ====
section
/-! SUPPORT. Statements made per instruction. Family `Encoding`: the fields of an instruction's encoded word are the
ones 30_encoding.md R71 and R84 give, under the default opcode map. -/

namespace Sys2Proof.Laws.Encoding

/-- Each field of the encoded word, at its place. -/
def Statement (i : Instr) : Prop :=
  opcodeField (encode i) = defaultOpcodeOf i.op ∧ modeField (encode i) = i.mode.bits ∧
  (encode i).extractLsb' 16 8 = 0#8 ∧ aField (encode i) = (if i.mode.usesA then i.a else 0#8) ∧
  bField (encode i) = i.b

/-- The fields of any encoded word. -/
theorem all (i : Instr) : Statement i :=
  ⟨opcodeField_encodeUnder _ i, modeField_encodeUnder _ i, unusedField_encodeUnder _ i, aField_encodeUnder _ i,
    bField_encodeUnder _ i⟩

theorem mov (m : Mode) (a b : Byte) : Statement (.mov m a b) := all _
theorem add (m : Mode) (a b : Byte) : Statement (.add m a b) := all _
theorem sub (m : Mode) (a b : Byte) : Statement (.sub m a b) := all _
theorem mul (m : Mode) (a b : Byte) : Statement (.mul m a b) := all _
theorem cmp (m : Mode) (a b : Byte) : Statement (.cmp m a b) := all _
theorem push (m : Mode) (a b : Byte) : Statement (.push m a b) := all _
theorem pop (m : Mode) (a b : Byte) : Statement (.pop m a b) := all _
theorem jmp (m : Mode) (a b : Byte) : Statement (.jmp m a b) := all _
theorem be (m : Mode) (a b : Byte) : Statement (.be m a b) := all _
theorem bne (m : Mode) (a b : Byte) : Statement (.bne m a b) := all _
theorem print (m : Mode) (a b : Byte) : Statement (.print m a b) := all _

end Sys2Proof.Laws.Encoding
end

