-- ==== Sys2Proof/Laws/Step.lean ====
section
/-! SUPPORT. The step said once: everything it can answer, the bound check, and the placed word. -/

namespace Sys2Proof.Machine

/-- The machine's step is the parametric one at the defaults. -/
theorem step_eq_stepUnder (s : State) : step s = stepUnder params s := by
  have : exec = execUnder params := funext fun i => funext fun t => exec_eq_execUnder i t
  rw [step, stepUnder, this]

/-- The step's decoder is the default one. -/
theorem decodeUnder_params (w : Word) : decodeUnder params.opcodeOf w = decode w := rfl

/-- The bound check (R101): no word is fetched exactly when `off + 4 > CODE_LEN`. -/
theorem fetch?_eq_none_iff (s : State) : s.fetch? = none ↔ s.codeLen < s.fetchOffset + 4 := by
  simp only [State.fetch?, Option.map_eq_none_iff, takeWord_eq_none, List.length_drop, State.codeLen]
  omega

/-- Everything a step can answer, from any state, under any parameters. -/
theorem stepUnder_cases {p : Params} {s : State} {o : Host.Outcome State Fault Refusal} (h : stepUnder p s = o) :
    (s.status ≠ .running ∧ o = .fault (.noStep s.status)) ∨
    (s.status = .running ∧ s.fetch? = none ∧ o = .next s.haltEnd) ∨
    (s.status = .running ∧ ∃ w opc, s.fetch? = some w ∧ decodeUnder p.opcodeOf w = .unknown opc ∧
      o = .next (s.raiseUnknownOpcode opc)) ∨
    (s.status = .running ∧ ∃ w i, s.fetch? = some w ∧ decodeUnder p.opcodeOf w = .known i ∧ o = execUnder p i s) := by
  subst h
  unfold stepUnder loopStep
  cases hs : s.status with
  | running =>
    unfold runningStep
    cases hf : s.fetch? with
    | none => simp
    | some w => cases hd : decodeUnder p.opcodeOf w <;> simp [hd]
  | _ => simp

/-- A placed word is the one fetched from its offset. -/
theorem takeWord_drop_placeWord (code : List Byte) (off : Nat) (w : Word) :
    (takeWord ((placeWord code off w).drop off)).map Prod.fst = some w := by
  have hl : (code.take off ++ List.replicate (off - code.length) 0#8).length = off := by
    simp only [List.length_append, List.length_take, List.length_replicate]; omega
  have hd : (placeWord code off w).drop off = wordBytes w ++ code.drop (off + 4) := by
    unfold placeWord
    rw [List.append_assoc, List.drop_left' hl]
  rw [hd, takeWord_wordBytes]
  rfl

/-- The host's placing: the next step fetches exactly the placed word. -/
theorem fetch?_withFetchWord (s : State) (nbits w : Nat) :
    (s.withFetchWord nbits w).fetch? = some (BitVec.ofNat 32 (w % 2 ^ nbits)) :=
  takeWord_drop_placeWord _ _ _

end Sys2Proof.Machine
end

