-- ==== Sys2Proof/Tests/Slice0.lean ====
section
/-! SUPPORT. Tests on one step, with the expected results of spec/95_test_vectors.md and of the rules' examples, and one
witness for the hypotheses of each statement. -/

namespace Sys2Proof.Tests

open Sys2Proof Sys2Proof.Machine

/-- The next state, if the outcome is one. -/
def nextOf (o : Host.Outcome State Fault Refusal) : Option State :=
  match o with
  | .next t => some t
  | .fault _ => none
  | .refused _ => none

/-- The fault, if the outcome is one. -/
def faultOf (o : Host.Outcome State Fault Refusal) : Option Fault :=
  match o with
  | .next _ => none
  | .fault f => some f
  | .refused _ => none

/-- Reset with registers set. -/
def withRegs (l : List (Reg × Byte)) : State := l.foldl (fun s x => s.set x.1 x.2) State.reset

/-- Registers of the next state, in the order asked for. -/
def regsAfter (rs : List Reg) (o : Host.Outcome State Fault Refusal) : Option (List Byte) :=
  (nextOf o).map fun t => rs.map t.get

/-- Reset with PC set, running a word placed where PC fetches. -/
def atPc (pc : Byte) (w : Nat) : State := (withRegs [(.pc, pc)]).withFetchWord 32 w

/-- Status and diagnostic of the next state. -/
def endAfter (o : Host.Outcome State Fault Refusal) : Option (RunStatus × Option Diag) :=
  (nextOf o).map fun t => (t.status, t.diag)

/-! ### Words written out from 30_encoding.md R71 and R78: opcode, mode, unused, A, B -/

theorem test_decode_mov : decode 0b00000001000000000000011100000000#32 = .known (.mov .regVal 7 0) := by decide
theorem test_decode_add : decode 0b00000100000000000000000100000000#32 = .known (.add .regReg 1 0) := by decide
theorem test_decode_sub : decode 0b00001001000000000000000100000001#32 = .known (.sub .regVal 1 1) := by decide
theorem test_decode_mul : decode 0b00001101000000000001000000000000#32 = .known (.mul .regVal 16 0) := by decide
theorem test_decode_cmp : decode 0b00010001000000000111111100000000#32 = .known (.cmp .regVal 0x7F 0) := by decide
theorem test_decode_push : decode 0b00010111000000000000000000101010#32 = .known (.push .valOnly 0 42) := by decide
theorem test_decode_pop : decode 0b00011010000000000000000000000000#32 = .known (.pop .regOnly 0 0) := by decide
theorem test_decode_jmp : decode 0b00011111000000000000000000000101#32 = .known (.jmp .valOnly 0 5) := by decide
theorem test_decode_be : decode 0b00100010000000000000000000000010#32 = .known (.be .regOnly 0 2) := by decide
theorem test_decode_bne : decode 0b00100111000000000000000000000001#32 = .known (.bne .valOnly 0 1) := by decide
theorem test_decode_print : decode 0b00101011000000000000000001100011#32 = .known (.print .valOnly 0 99) := by decide

/-- V-DEC-02, V-DEC-03: bits 23:16 are ignored. -/
theorem test_decode_ignores_unused :
    decode 0x01AB0700#32 = .known (.mov .regVal 7 0) ∧ decode 0x17FFFF2A#32 = .known (.push .valOnly 0xFF 42) := by
  decide

/-- V-DEC-04, V-DEC-07: opcodes 11 and 63 are unknown, by name, and a short byte sequence too. -/
theorem test_decode_rejects_by_name :
    decode 0x2C000000#32 = .unknown 11 ∧ decode 0xFFFFFFFF#32 = .unknown 63 ∧
    (decodeBytes [0x2C, 0, 0, 0]).toOption = none ∧ (decodeBytes [1, 0, 7]).toOption = none := by
  decide

/-- The table numbers a word's bits from its least significant one; the image stores it big-endian. -/
theorem test_decodeTableWord :
    decodeTableWord 32 0x1A000004 = some (.pop .regOnly 0 4) ∧ decodeTableWord 32 0x18000000 = some (.pop .regReg 0 0) ∧
    decodeTableWord 32 0xFC000000 = none := by
  decide

/-- R76's output signals on V-DEC-05. -/
theorem test_decoderPorts : decoderPorts defaultOpcodeOf 0x2F000102#32 =
    { known := false, op := none, opcode := 11, mode := 3, a := 1, b := 2 } := by
  decide

/-! ### WellFormed: each check refuses an ill-formed term -/

theorem test_wellFormed_refuses_illegal_mode :
    Instr.wellFormed (.pop .valOnly 0 5) = false ∧ Instr.wellFormed (.mov .regOnly 0 0) = false := by decide
theorem test_wellFormed_refuses_stray_operand : Instr.wellFormed (.push .valOnly 1 5) = false := by decide
theorem test_wellFormed_accepts :
    Instr.wellFormed (.push .valOnly 0 5) = true ∧ Instr.wellFormed (.mov .regReg 0x20 0xFF) = true := by decide

/-! ### MOV -/

/-- V-MOV-03, V-MOV-04. -/
theorem test_mov_pc_and_flag :
    regsAfter [.r0, .pc] (exec (.mov .regReg 3 0) (withRegs [(.pc, 6)])) = some [6, 7] ∧
    regsAfter [.zf, .pc] (exec (.mov .regVal 5 6) State.reset) = some [5, 1] := by decide
/-- V-MOV-05, V-MOV-06. -/
theorem test_mov_out_of_range :
    regsAfter [.r0, .pc] (exec (.mov .regReg 0x20 0) (withRegs [(.r0, 9)])) = some [0, 1] ∧
    nextOf (exec (.mov .regVal 1 0x20) State.reset) = some (withRegs [(.pc, 1)]) := by decide

/-! ### ADD, SUB -/

/-- V-ADD-04, V-ADD-05, V-ADD-12: result, ZF, CF, OF. -/
theorem test_add :
    regsAfter [.r0, .zf, .cf, .of, .pc] (exec (.add .regVal 0x01 0) (withRegs [(.r0, 0x7F)])) = some [0x80, 0, 0, 1, 1] ∧
    regsAfter [.r0, .zf, .cf, .of, .pc] (exec (.add .regReg 1 0) (withRegs [(.r0, 0x80), (.r1, 0x80)])) =
      some [0, 1, 1, 0, 1] ∧
    regsAfter [.r0, .zf, .cf, .of] (exec (.add .regReg 0 0) (withRegs [(.r0, 0x81)])) = some [2, 0, 1, 1] := by decide
/-- V-ADD-19, V-ADD-20, V-DISP-07. -/
theorem test_add_special :
    regsAfter [.zf, .pc] (exec (.add .regVal 1 6) State.reset) = some [0, 1] ∧
    regsAfter [.zf, .cf, .of, .pc] (exec (.add .regVal 0 0x20) State.reset) = some [1, 0, 0, 1] ∧
    regsAfter [.pc] (exec (.add .regVal 2 3) (withRegs [(.pc, 1)])) = some [3] := by decide
/-- V-SUB-05, V-SUB-06, V-SUB-07. -/
theorem test_sub :
    regsAfter [.r0, .zf, .cf, .of] (exec (.sub .regVal 0x80 0) (withRegs [])) = some [0x80, 0, 1, 0] ∧
    regsAfter [.r0, .zf, .cf, .of] (exec (.sub .regVal 1 0) (withRegs [(.r0, 0x80)])) = some [0x7F, 0, 0, 1] ∧
    regsAfter [.r0, .zf, .cf, .of] (exec (.sub .regReg 1 0) (withRegs [(.r0, 0x7F), (.r1, 0xFF)])) =
      some [0x80, 0, 1, 1] := by decide
/-- V-SUB-18, V-SUB-19. -/
theorem test_sub_special :
    regsAfter [.r1, .zf, .cf, .of, .pc] (exec (.sub .regReg 1 1) (withRegs [(.r1, 0x37), (.cf, 1)])) =
      some [0, 1, 0, 0, 1] ∧
    regsAfter [.zf, .cf, .of, .pc] (exec (.sub .regVal 1 7) State.reset) = some [0, 1, 0, 1] := by decide
/-- V-ADD-05, V-SUB-05, last column: OF under SignBit. -/
theorem test_signBit : (addFlags .signBit 0x80 0x80).of = true ∧ (subFlags .signBit 0 0x80).of = true := by decide

/-! ### MUL, CMP -/

/-- V-MUL-04, V-MUL-10, V-MUL-12. -/
theorem test_mul :
    regsAfter [.r0, .zf, .pc] (exec (.mul .regReg 1 0) (withRegs [(.r0, 0xFF), (.r1, 0xFF)])) = some [1, 0, 1] ∧
    regsAfter [.r0, .zf, .pc] (exec (.mul .regVal 4 0) (withRegs [(.r0, 3), (.zf, 1)])) = some [12, 1, 1] ∧
    regsAfter [.of] (exec (.mul .regVal 3 8) (withRegs [(.of, 1)])) = some [3] := by decide
/-- V-CMP-04, V-CMP-05, V-CMP-10, V-CMP-16. -/
theorem test_cmp :
    regsAfter [.r0, .zf, .cf, .of] (exec (.cmp .regVal 0x7F 0) (withRegs [(.r0, 0x80)])) = some [0x80, 0, 0, 1] ∧
    regsAfter [.zf, .cf, .of] (exec (.cmp .regReg 1 0) (withRegs [(.r0, 0x7F), (.r1, 0x80)])) = some [0, 1, 0] ∧
    regsAfter [.zf, .cf, .of] (exec (.cmp .regVal 0x64 0) (withRegs [(.r0, 0xC8)])) = some [0, 0, 1] ∧
    regsAfter [.zf, .cf, .of] (exec (.cmp .regVal 5 0) (withRegs [(.r0, 5), (.cf, 1), (.of, 1)])) = some [1, 0, 0] := by
  decide

/-! ### PUSH, POP -/

/-- V-STK-03, V-STK-04: SP wraps; the value before the increment is pushed. -/
theorem test_push :
    (nextOf (exec (.push .valOnly 0 7) (withRegs [(.sp, 255)]))).map (fun t => (t.get .sp, t.stack)) =
      some (0, [(255, 7)]) ∧
    (nextOf (exec (.push .regOnly 0 4) (withRegs [(.sp, 3)]))).map (fun t => (t.get .sp, t.stack)) =
      some (4, [(3, 3)]) := by decide
/-- V-STK-09, V-STK-10, V-STK-11, V-STK-14. -/
theorem test_pop :
    regsAfter [.sp, .pc] (exec (.pop .regOnly 0 4) ((withRegs [(.sp, 1)]).stackWrite 0 9)) = some [9, 1] ∧
    regsAfter [.sp, .pc] (exec (.pop .regOnly 0 3) ((withRegs [(.sp, 1), (.pc, 3)]).stackWrite 0 7)) = some [0, 7] ∧
    regsAfter [.sp, .pc] (exec (.pop .regOnly 0 3) ((withRegs [(.sp, 1), (.pc, 3)]).stackWrite 0 3)) = some [0, 4] ∧
    regsAfter [.sp, .pc] (exec (.pop .regOnly 0 0x20) ((withRegs [(.sp, 2)]).stackWrite 1 9)) = some [1, 1] := by decide
/-- V-STK-08: a byte no PUSH of the run wrote reads as STACK0. -/
theorem test_pop_unwritten :
    regsAfter [.r0, .sp] (exec (.pop .regOnly 0 0) State.reset) = some [Config.stack0 255, 255] := rfl
/-- The stack lists written bytes in rising order, each once. -/
theorem test_stack_canonical :
    (((State.reset.stackWrite 5 1).stackWrite 2 7).stackWrite 5 9).stack = [(2, 7), (5, 9)] := by decide

/-! ### JMP, BE, BNE, PRINT -/

/-- V-CTL-01, V-CTL-02, V-CTL-05. -/
theorem test_jmp :
    regsAfter [.pc] (exec (.jmp .valOnly 0 5) (withRegs [(.pc, 2)])) = some [5] ∧
    regsAfter [.pc] (exec (.jmp .valOnly 0 2) (withRegs [(.pc, 2)])) = some [3] ∧
    regsAfter [.pc] (exec (.jmp .regOnly 0 0x20) (withRegs [(.pc, 6)])) = some [0] := by decide
/-- V-CTL-07, V-CTL-08, V-CTL-09. -/
theorem test_be :
    regsAfter [.pc] (exec (.be .valOnly 0 8) (withRegs [(.pc, 5)])) = some [6] ∧
    regsAfter [.pc] (exec (.be .valOnly 0 8) (withRegs [(.pc, 5), (.zf, 1)])) = some [8] ∧
    regsAfter [.pc] (exec (.be .valOnly 0 8) (withRegs [(.pc, 5), (.zf, 5)])) = some [6] := by decide
/-- V-CTL-12, V-CTL-13, V-CTL-14. -/
theorem test_bne :
    regsAfter [.pc] (exec (.bne .valOnly 0 1) (withRegs [(.pc, 3), (.zf, 1)])) = some [4] ∧
    regsAfter [.pc] (exec (.bne .valOnly 0 1) (withRegs [(.pc, 3), (.zf, 2)])) = some [1] ∧
    regsAfter [.pc] (exec (.bne .valOnly 0 3) (withRegs [(.pc, 3)])) = some [4] := by decide
/-- V-OUT-03, V-OUT-05, V-OUT-06. -/
theorem test_print :
    (nextOf (exec (.print .valOnly 0 255) State.reset)).map (·.out) = some [255] ∧
    (nextOf (exec (.print .regOnly 0 8) (withRegs [(.of, 1)]))).map (·.out) = some [1] ∧
    (nextOf (exec (.print .regOnly 0 0x20) (State.reset.emit 4))).map (·.out) = some [4, 0] := by decide
/-- V-OUT-01, V-OUT-02, V-OUT-03: the bytes of the line. -/
theorem test_render :
    renderLine 99 = [0x39, 0x39, 0x0A] ∧ renderLine 0 = [0x30, 0x0A] ∧ renderLine 255 = [0x32, 0x35, 0x35, 0x0A] := by
  decide

/-! ### The step -/

/-- V-DISP-10: the increment at index 255 wraps. -/
theorem test_pc_wraps : regsAfter [.pc, .r0] (exec (.mov .regVal 7 0) (withRegs [(.pc, 255)])) = some [0, 7] := by decide
/-- A word placed where PC fetches runs as the next instruction. -/
theorem test_step_runs_placed_word : regsAfter [.pc, .r0] (step (atPc 9 0x01000700)) = some [10, 7] := by decide
/-- V-DISP-12 and V-DISP-01: past the last word the run halts normally. -/
theorem test_step_halts :
    nextOf (step State.reset) = some { State.reset with status := .haltEnd } ∧
    endAfter (step { withRegs [(.pc, 2)] with code := [0, 0, 0, 0, 0, 0, 0, 0] }) = some (.haltEnd, none) := by decide
/-- V-DEC-05, V-DEC-07: the opcode check comes first, and PC stays. -/
theorem test_step_unknown :
    endAfter (step (atPc 0 0x2F000000)) = some (.haltBadop, some (.unknownOpcode 0 11)) ∧
    endAfter (step (atPc 4 0xFFFFFFFF)) = some (.haltBadop, some (.unknownOpcode 4 63)) ∧
    regsAfter [.pc] (step (atPc 4 0xFFFFFFFF)) = some [4] := by decide
/-- V-DEC-09, V-DEC-14, V-DEC-15: an illegal mode aborts and nothing else changes. -/
theorem test_step_illegal :
    endAfter (step (atPc 0 0x03000000)) = some (.abortMode, some (.illegalMode 0 .mov .valOnly)) ∧
    regsAfter [.sp, .pc] (step ((atPc 0 0x1B000005).set .sp 1)) = some [1, 0] ∧
    endAfter (step (atPc 7 0x1D000100)) = some (.abortMode, some (.illegalMode 7 .jmp .regVal)) := by decide
/-- V-DISP-13: a terminal status has no step. -/
theorem test_step_terminal : faultOf (step State.reset.haltEnd) = some (.noStep .haltEnd) := by decide
/-- V-LOAD-01, V-LOAD-02, V-LOAD-03. -/
theorem test_load :
    (State.load (some [])).status = .running ∧ (State.load (some [0, 0, 0, 0, 0, 0])).status = .loadRejected ∧
    (nextOf (step (State.load (some [0x2B, 0, 0, 7])))).map (fun t => (t.out, t.get .pc)) = some ([7], 1) := by decide
/-- 95, after V-MOV-08: under the Fault policy V-MOV-05 aborts with the identifier recorded. -/
theorem test_fault_policy :
    endAfter (execUnder { params with badRegPolicy := .fault } (.mov .regReg 0x20 0) (withRegs [(.r0, 9)])) =
      some (.abortMode, some (.badRegister 0 .mov 0x20)) := by decide
/-- R212, R219: the abort of V-DEC-14 as the host sees it. -/
theorem test_host_view :
    (nextOf (step (atPc 0 0x1B000005))).map (fun t => (t.status.code, t.diagPc)) = some (2, some 0) ∧
    (nextOf (step (atPc 0 0x1B000005))).map (fun t => (t.diagOpcode, t.diagMode)) = some (some 6, some 3) ∧
    (nextOf (step (atPc 0 0x1B000005))).map (fun t => t.status.exitStatus params) = some (some 1) := by decide

/-! ### Witnesses: the hypotheses of each statement are met, at the edges of its clauses -/

/-- Both maps the statements over opcode maps ask for exist: the default one, and its numbers counted down from 63. -/
theorem witness_injective_map : Function.Injective defaultOpcodeOf ∧
    Function.Injective (fun op => 63#6 - defaultOpcodeOf op) :=
  ⟨defaultOpcodeOf_injective, fun x y h => defaultOpcodeOf_injective (by simpa using congrArg (63#6 - ·) h)⟩

theorem witness_DecodedInstructionIsTheWordsFields :
    Function.Injective (fun op => 63#6 - defaultOpcodeOf op) ∧
    decodeUnder (fun op => 63#6 - defaultOpcodeOf op) 0xFCFF0203#32 = .known (.mov .regReg 2 3) :=
  ⟨witness_injective_map.2, by decide⟩

theorem witness_UnknownOpcodesAreTheUnassignedValues :
    decode 0x2C000000#32 = .unknown 11 ∧ decode 0xFC000000#32 = .unknown 63 ∧
    decode 0x2B000000#32 = .known (.print .valOnly 0 0) := by decide

theorem witness_IgnoredBitsNeverChangeTheOutcome :
    (0x17FFFF2A#32 ^^^ 0x1700FF2A#32) &&& 0xFF00FFFF#32 = 0#32 ∧ (Mode.valOnly = .regOnly ∨ Mode.valOnly = .valOnly) := by
  decide

theorem witness_DecodeOfEncodeIsTheInstruction :
    Function.Injective (fun op => 63#6 - defaultOpcodeOf op) ∧
    Instr.isCanonical (.mov .regReg 255 255) = true ∧ Instr.isCanonical (.push .valOnly 0 255) = true ∧
    Instr.isCanonical (.push .valOnly 1 255) = false := ⟨witness_injective_map.2, by decide⟩

theorem witness_EncodeOfDecodeClearsTheIgnoredBits :
    Function.Injective defaultOpcodeOf ∧
    decodeUnder defaultOpcodeOf 0x01AB0700#32 = .known (.mov .regVal 7 0) ∧
    decodeUnder defaultOpcodeOf 0x17FFFF2A#32 = .known (.push .valOnly 0xFF 42) :=
  ⟨defaultOpcodeOf_injective, by decide, by decide⟩

/-- Both modes; destinations R0, PC, OF and none. -/
theorem witness_MovCopiesItsSource :
    (Mode.regReg = .regReg ∨ Mode.regReg = .regVal) ∧ (Mode.regVal = .regReg ∨ Mode.regVal = .regVal) ∧
    Names 0 .r0 ∧ Names 3 .pc ∧ Names 8 .of ∧ namedReg params 9 = none := by decide

/-- Both modes; destinations R2, PC, SP, each flag and none. -/
theorem witness_AddStoresTheSumAndItsFlags :
    (Mode.regReg = .regReg ∨ Mode.regReg = .regVal) ∧ (Mode.regVal = .regReg ∨ Mode.regVal = .regVal) ∧
    Names 2 .r2 ∧ Names 3 .pc ∧ Names 4 .sp ∧ Names 6 .zf ∧ Names 7 .cf ∧ Names 8 .of ∧ namedReg params 255 = none := by decide

/-- Both modes; destinations BP, PC, each flag and none. -/
theorem witness_SubStoresTheDifferenceAndItsFlags :
    (Mode.regReg = .regReg ∨ Mode.regReg = .regVal) ∧ (Mode.regVal = .regReg ∨ Mode.regVal = .regVal) ∧
    Names 5 .bp ∧ Names 3 .pc ∧ Names 6 .zf ∧ Names 7 .cf ∧ Names 8 .of ∧ namedReg params 9 = none := by decide

/-- Both modes; destinations R1, PC, a flag and none. -/
theorem witness_MulStoresTheLowByteOfTheProduct :
    (Mode.regReg = .regReg ∨ Mode.regReg = .regVal) ∧ (Mode.regVal = .regReg ∨ Mode.regVal = .regVal) ∧
    Names 1 .r1 ∧ Names 3 .pc ∧ Names 7 .cf ∧ namedReg params 9 = none := by decide

/-- Both modes. -/
theorem witness_CmpOrdersTheSignedOperands :
    (Mode.regReg = .regReg ∨ Mode.regReg = .regVal) ∧ (Mode.regVal = .regReg ∨ Mode.regVal = .regVal) := by decide

/-- Both modes; SP at its top, and a byte away from it. -/
theorem witness_PushWritesAtSpThenIncrements :
    (Mode.regOnly = .regOnly ∨ Mode.regOnly = .valOnly) ∧ (Mode.valOnly = .regOnly ∨ Mode.valOnly = .valOnly) ∧
    (withRegs [(.sp, 255)]).get .sp + 1#8 = 0#8 ∧ (0 : Byte) ≠ (withRegs [(.sp, 255)]).get .sp := by decide

/-- Both modes; a target that is the jump's own index, and one that is not. -/
theorem witness_JmpGoesToItsTarget :
    (Mode.regOnly = .regOnly ∨ Mode.regOnly = .valOnly) ∧ (Mode.valOnly = .regOnly ∨ Mode.valOnly = .valOnly) ∧
    nextPc 255 255 = 0#8 ∧ nextPc 255 0 = 0#8 ∧ nextPc 2 5 = 5#8 := by decide

/-- Both modes; ZF at 1, and on either side of it. -/
theorem witness_BeBranchesWhenZfIsOne :
    (Mode.regOnly = .regOnly ∨ Mode.regOnly = .valOnly) ∧ (Mode.valOnly = .regOnly ∨ Mode.valOnly = .valOnly) ∧
    (withRegs [(.zf, 1)]).get .zf = 1#8 ∧ State.reset.get .zf ≠ 1#8 ∧ (withRegs [(.zf, 2)]).get .zf ≠ 1#8 := by decide

/-- Both modes; ZF at 1, and on either side of it. -/
theorem witness_BneBranchesWhenZfIsNotOne :
    (Mode.regOnly = .regOnly ∨ Mode.regOnly = .valOnly) ∧ (Mode.valOnly = .regOnly ∨ Mode.valOnly = .valOnly) ∧
    State.reset.get .zf ≠ 1#8 ∧ (withRegs [(.zf, 2)]).get .zf ≠ 1#8 ∧ (withRegs [(.zf, 1)]).get .zf = 1#8 := by decide

/-- Both modes. -/
theorem witness_PrintAppendsItsOperand :
    (Mode.regOnly = .regOnly ∨ Mode.regOnly = .valOnly) ∧ (Mode.valOnly = .regOnly ∨ Mode.valOnly = .valOnly) := by decide

theorem witness_PopDecrementsThenReads : Names 4 .sp ∧ ¬ Names 5 .sp ∧ ¬ Names 9 .sp ∧ Names 3 .pc := by decide

theorem witness_IllegalModeAbortsBeforeAnyWrite :
    Opcode.allows (Instr.pop .valOnly 0 5).op (Instr.pop .valOnly 0 5).mode = false ∧
    Opcode.allows (Instr.mov .regOnly 0 0).op (Instr.mov .regOnly 0 0).mode = false := by decide

/-- An instruction that leaves PC's value (JMP to itself) and one that changes it. -/
theorem witness_PcAdvancesOnlyWhenItsValueIsUnchanged :
    Opcode.allows (Instr.jmp .valOnly 0 255).op (Instr.jmp .valOnly 0 255).mode = true ∧
    (effect params (.jmp .valOnly 0 255) (withRegs [(.pc, 255)])).get .pc = (withRegs [(.pc, 255)]).get .pc ∧
    (effect params (.jmp .valOnly 0 255) State.reset).get .pc ≠ State.reset.get .pc := by decide

theorem witness_PushThenPopReturnsThePushedValue :
    (Mode.valOnly = .regOnly ∨ Mode.valOnly = .valOnly) ∧ ¬ Names 0 .sp ∧ ¬ Names 9 .sp := by decide

theorem witness_FlagLogicWritesZeroOrOneAndCmpExactlyOne :
    ((Instr.cmp .regReg 1 0).op = .add ∨ (Instr.cmp .regReg 1 0).op = .sub ∨ (Instr.cmp .regReg 1 0).op = .cmp) ∧
    ((Instr.cmp .regReg 1 0).mode = .regReg ∨ (Instr.cmp .regReg 1 0).mode = .regVal) := by decide

/-- A flag changed as a side effect (ADD on ZF) and through an identifier (MOV into CF). -/
theorem witness_OnlyAddSubCmpChangeFlagsAsASideEffect :
    regsAfter [.zf] (exec (.add .regVal 0 0) State.reset) = some [1] ∧ State.reset.get .zf = 0 ∧
    regsAfter [.cf] (exec (.mov .regVal 255 7) State.reset) = some [255] ∧ State.reset.get .cf = 0 := by decide

theorem witness_RegisterIdentifiersReadAndWriteTheirRegister :
    Reg.all[(0 : Byte).toNat]? = some .r0 ∧ Reg.all[(8 : Byte).toNat]? = some .of ∧ 9 ≤ (9 : Byte).toNat ∧
    9 ≤ (255 : Byte).toNat := by decide

theorem witness_FaultPolicyAbortsOnUnnamedIdentifiers :
    (Instr.mov .regReg 9 255).modeAllowed = true ∧
    (∃ id ∈ Instr.identifiers (.mov .regReg 9 255), namedReg { params with badRegPolicy := .fault } id = none) ∧
    (∀ id ∈ Instr.identifiers (.mov .regReg 8 0), namedReg { params with badRegPolicy := .fault } id ≠ none) := by
  decide

/-- Each clause: BP beside ADD, SP beside JMP, ZF beside MUL, CF beside BE. -/
theorem witness_UnnamedRegistersPlayNoPart :
    (∀ id ∈ Instr.identifiers (.add .regReg 1 0), ¬ Names id .bp) ∧
    ((∀ id ∈ Instr.identifiers (.jmp .regOnly 0 5), ¬ Names id .sp) ∧
      (Instr.jmp .regOnly 0 5).op ≠ .push ∧ (Instr.jmp .regOnly 0 5).op ≠ .pop) ∧
    ((∀ id ∈ Instr.identifiers (.mul .regReg 7 5), ¬ Names id .zf) ∧ (Instr.mul .regReg 7 5).op ≠ .add ∧
      (Instr.mul .regReg 7 5).op ≠ .sub ∧ (Instr.mul .regReg 7 5).op ≠ .cmp ∧ (Instr.mul .regReg 7 5).op ≠ .be ∧
      (Instr.mul .regReg 7 5).op ≠ .bne) ∧
    ((∀ id ∈ Instr.identifiers (.be .regOnly 0 2), ¬ Names id .cf) ∧ (Instr.be .regOnly 0 2).op ≠ .add ∧
      (Instr.be .regOnly 0 2).op ≠ .sub ∧ (Instr.be .regOnly 0 2).op ≠ .cmp) := by decide

/-- The highest reachable word. -/
theorem witness_FetchAssemblesBigEndian :
    ({ withRegs [(.pc, 255)] with code := List.replicate 1020 0 ++ [1, 2, 3, 4] } : State).code.drop
      (4 * ((withRegs [(.pc, 255)]).get .pc).toNat) = [1, 2, 3, 4] :=
  List.drop_left' (List.length_replicate ..)

theorem witness_StepRunsTheDecodedInstruction :
    (atPc 0 0x2B000063).status = .running ∧
    decodeBytes ((atPc 0 0x2B000063).code.drop (4 * ((atPc 0 0x2B000063).get .pc).toNat)) =
      .ok (.print .valOnly 0 99, []) := ⟨rfl, rfl⟩

/-- One word short, exactly: PC = 1 in a four-byte image. -/
theorem witness_StepPastTheLastWordHalts :
    ({ withRegs [(.pc, 1)] with code := [0, 0, 0, 0] } : State).status = .running ∧
    ({ withRegs [(.pc, 1)] with code := [0, 0, 0, 0] } : State).code.length <
      4 * (({ withRegs [(.pc, 1)] with code := [0, 0, 0, 0] } : State).get .pc).toNat + 4 := by decide

/-- The lowest unknown opcode with every mode bit set, and the highest. -/
theorem witness_StepOnUnknownOpcodeHalts :
    (atPc 0 0x2C000000).status = .running ∧ (atPc 0 0x2C000000).code.drop 0 = [0x2C, 0, 0, 0] ∧
    11 ≤ (0x2C : Byte).toNat / 4 ∧ 11 ≤ (0xFF : Byte).toNat / 4 ∧ ¬ 11 ≤ (0x2B : Byte).toNat / 4 := by decide

theorem witness_TerminalStatusHasNoStep : State.reset.haltEnd.status ≠ .running := by decide
theorem witness_RunningStepAlwaysCompletes : State.reset.status = .running := by decide

theorem witness_ErrorEntryIsPrecise :
    (nextOf (step (atPc 3 0x18000000))).map (·.status) = some .abortMode ∧
    (nextOf (step (atPc 3 0xFC000000))).map (·.status) = some .haltBadop := by decide

theorem witness_OnlyPushChangesTheStack :
    (nextOf (step ((atPc 0 0x1700002A).stackWrite 0 7))).map (·.stackRead 0) = some 42 ∧
    ((atPc 0 0x1700002A).stackWrite 0 7).stackRead 0 = 7 := by decide

/-- A step that emits and one that does not. -/
theorem witness_OnlyPrintAppendsToTheTrace :
    (nextOf (step (atPc 0 0x2B000063))).map (·.out) = some [99] ∧
    (nextOf (step (atPc 0 0x01000700))).map (·.out) = some [] := by decide

theorem witness_LoadAcceptsExactlyWholeWords :
    ([0, 0, 0, 0, 0] : List Byte).length % 4 ≠ 0 ∧ ([] : List Byte).length % 4 = 0 ∧
    (List.replicate 1028 (0 : Byte)).length % 4 = 0 := by
  refine ⟨by decide, by decide, by rw [List.length_replicate]⟩

/-- A state with the invariant that steps to an abort, and under the Fault policy one that steps to that policy's abort. -/
theorem witness_EveryStepKeepsTheInvariant :
    ((State.load (some [0x18, 0, 0, 0])).Inv params ∧
      (nextOf (step (State.load (some [0x18, 0, 0, 0])))).map (·.status) = some .abortMode) ∧
    ((State.load (some [0, 0, 0x20, 0])).Inv { params with badRegPolicy := .fault } ∧
      (nextOf (stepUnder { params with badRegPolicy := .fault } (State.load (some [0, 0, 0x20, 0])))).map (·.diag) =
        some (some (.badRegister 0 .mov 0x20))) :=
  ⟨⟨⟨Memory.wf_nil, rfl, rfl⟩, by decide⟩, ⟨⟨Memory.wf_nil, rfl, rfl⟩, by decide⟩⟩

/-- A run of an accepted image that ends abnormally after one instruction (95, P5). -/
theorem witness_EveryRunOfALoadedImageKeepsTheInvariant :
    imageAccepted [0x17, 0, 0, 0x2A, 0xFC, 0, 0, 0] = true ∧
    (nextOf (Host.Core.run { State := State, Fault := Fault, Refusal := Refusal, step := stepUnder params, reset := State.reset }
      2 (State.load (some [0x17, 0, 0, 0x2A, 0xFC, 0, 0, 0])))).map (fun t => (t.status, t.diag)) =
      some (.haltBadop, some (.unknownOpcode 1 63)) := by decide

/-- Ended runs of both kinds that have the invariant. -/
theorem witness_DiagnosticSignalsAgreeWithTheRecord :
    ((State.load (some [0xFC, 0, 0, 0])).raiseUnknownOpcode 63).Inv params ∧
    ((State.load (some [0x18, 0, 0, 0])).raiseIllegalMode .pop .regReg).Inv params :=
  ⟨⟨Memory.wf_nil, rfl, ⟨0xFC000000#32, 63, rfl, rfl, rfl⟩⟩,
   ⟨Memory.wf_nil, rfl, ⟨0x18000000#32, .pop .regReg 0 0, rfl, rfl, .inl ⟨rfl, rfl⟩⟩⟩⟩

end Sys2Proof.Tests
end

section
/-! PROOFS. The state family: what every step keeps (10_state.md R35, R36, R40, R61) and the values at reset (R42). -/

namespace Sys2Proof.Machine

/-! ### The end of a run keeps the fetched word -/

@[simp] theorem State.fetch?_haltEnd (s : State) : s.haltEnd.fetch? = s.fetch? :=
  State.fetch?_congr rfl (State.get_haltEnd s .pc)
@[simp] theorem State.fetch?_raise (s : State) (o : RunStatus) (d : Diag) : (s.raise o d).fetch? = s.fetch? :=
  State.fetch?_congr rfl (State.get_raise s o d .pc)

/-! ### The status is sound after each way a step can end -/

theorem statusSound_of_running {p : Params} {t : State} (hs : t.status = .running) (hd : t.diag = none) :
    StatusSound p t := by
  simp only [StatusSound, hs, hd]

theorem diag_eq_none_of_running {p : Params} {s : State} (h : StatusSound p s) (hs : s.status = .running) :
    s.diag = none := by
  simpa only [StatusSound, hs] using h

/-- R101: the bound check that halts the run is what HALT_END says of the state. -/
theorem statusSound_haltEnd {p : Params} {s : State} (hf : s.fetch? = none) (hd : s.diag = none) :
    StatusSound p s.haltEnd := by
  refine ⟨(fetch?_eq_none_iff _).mp ?_, hd⟩
  rw [State.fetch?_haltEnd, hf]

/-- R103. -/
theorem statusSound_raiseUnknownOpcode {p : Params} {s : State} {w : Word} {opc : BitVec 6}
    (hf : s.fetch? = some w) (hd : decodeUnder p.opcodeOf w = .unknown opc) :
    StatusSound p (s.raiseUnknownOpcode opc) :=
  ⟨w, opc, (State.fetch?_raise ..).trans hf, hd, rfl⟩

/-- R104. -/
theorem statusSound_raiseIllegalMode {p : Params} {s : State} {w : Word} {i : Instr}
    (hf : s.fetch? = some w) (hd : decodeUnder p.opcodeOf w = .known i) (hm : i.modeAllowed = false) :
    StatusSound p (s.raiseIllegalMode i.op i.mode) :=
  ⟨w, i, (State.fetch?_raise ..).trans hf, hd, .inl ⟨hm, rfl⟩⟩

/-- R22 under the Fault policy. -/
theorem statusSound_raiseBadRegister {p : Params} {s : State} {w : Word} {i : Instr} {id : Byte}
    (hf : s.fetch? = some w) (hd : decodeUnder p.opcodeOf w = .known i) (hm : i.modeAllowed = true)
    (hb : badIdentifier p i = some id) : StatusSound p (s.raiseBadRegister i.op id) := by
  obtain ⟨hp, hid, hn⟩ := badIdentifier_some hb
  exact ⟨w, i, (State.fetch?_raise ..).trans hf, hd, .inr ⟨hm, hp, id, hid, hn, rfl⟩⟩

/-! ### What a step keeps -/

/-- Everything a step that answers a next state has done to it. -/
theorem stepUnder_next_cases {p : Params} {s t : State} (h : stepUnder p s = .next t) :
    s.status = .running ∧
    ((s.fetch? = none ∧ t = s.haltEnd) ∨
     ∃ w, s.fetch? = some w ∧
       ((∃ opc, decodeUnder p.opcodeOf w = .unknown opc ∧ t = s.raiseUnknownOpcode opc) ∨
        ∃ i, decodeUnder p.opcodeOf w = .known i ∧
          ((i.modeAllowed = false ∧ t = s.raiseIllegalMode i.op i.mode) ∨
           (i.modeAllowed = true ∧ ∃ id, badIdentifier p i = some id ∧ t = s.raiseBadRegister i.op id) ∨
           (i.modeAllowed = true ∧ badIdentifier p i = none ∧ t = (effect p i s).advance (s.get .pc))))) := by
  rcases stepUnder_cases h with ⟨-, h⟩ | ⟨hs, hf, h⟩ | ⟨hs, w, opc, hf, hd, h⟩ | ⟨hs, w, i, hf, hd, h⟩
  · cases h
  · cases h; exact ⟨hs, .inl ⟨hf, rfl⟩⟩
  · cases h; exact ⟨hs, .inr ⟨w, hf, .inl ⟨opc, hd, rfl⟩⟩⟩
  · refine ⟨hs, .inr ⟨w, hf, .inr ⟨i, hd, ?_⟩⟩⟩
    rcases execUnder_cases h.symm with ⟨hm, hb, h⟩ | ⟨hm, id, hb, h⟩ | ⟨hm, h⟩ <;> cases h
    · exact .inr (.inr ⟨hm, hb, rfl⟩)
    · exact .inr (.inl ⟨hm, id, hb, rfl⟩)
    · exact .inl ⟨hm, rfl⟩

/-- A step that answers a next state either ends the run, changing the run status and the diagnostic record alone, or
completes the legal instruction it fetched. -/
theorem stepUnder_ends_or_completes {p : Params} {s t : State} (h : stepUnder p s = .next t) :
    (∃ st d, t = { s with status := st, diag := d }) ∨
    ∃ w i, s.fetch? = some w ∧ decodeUnder p.opcodeOf w = .known i ∧ i.modeAllowed = true ∧
      t = (effect p i s).advance (s.get .pc) := by
  obtain ⟨-, ⟨-, rfl⟩ | ⟨w, hf, ⟨opc, -, rfl⟩ | ⟨i, hd, ⟨-, rfl⟩ | ⟨-, id, -, rfl⟩ | ⟨hm, -, rfl⟩⟩⟩⟩ :=
    stepUnder_next_cases h
  case inr.inr.inr.inr => exact .inr ⟨w, i, hf, hd, hm, rfl⟩
  all_goals exact .inl ⟨_, _, rfl⟩

/-- R61: no step changes the code image. -/
theorem stepUnder_code {p : Params} {s t : State} (h : stepUnder p s = .next t) : t.code = s.code := by
  rcases stepUnder_ends_or_completes h with ⟨st, d, rfl⟩ | ⟨w, i, -, -, -, rfl⟩
  · rfl
  · simp

/-- R33: no opcode's effect leaves the stack's canonical form. -/
theorem effect_keeps_stack_wf {p : Params} {i : Instr} {s : State} (h : Memory.wf s.stack) :
    Memory.wf (effect p i s).stack := by
  rcases effect_stack p i s with he | ⟨k, v, he⟩
  · rwa [he]
  · rw [he]; exact Memory.put_wf k v h

theorem stepUnder_keeps_stack_wf {p : Params} {s t : State} (hw : Memory.wf s.stack)
    (h : stepUnder p s = .next t) : Memory.wf t.stack := by
  rcases stepUnder_ends_or_completes h with ⟨st, d, rfl⟩ | ⟨w, i, -, -, -, rfl⟩
  · exact hw
  · rw [State.advance_stack]
    exact effect_keeps_stack_wf hw

theorem stepUnder_keeps_statusSound {p : Params} {s t : State} (hs : StatusSound p s)
    (h : stepUnder p s = .next t) : StatusSound p t := by
  obtain ⟨hr, h⟩ := stepUnder_next_cases h
  have hnone := diag_eq_none_of_running hs hr
  rcases h with ⟨hf, rfl⟩ | ⟨w, hf, ⟨opc, hd, rfl⟩ | ⟨i, hd, ⟨hm, rfl⟩ | ⟨hm, id, hb, rfl⟩ | ⟨-, -, rfl⟩⟩⟩
  · exact statusSound_haltEnd hf hnone
  · exact statusSound_raiseUnknownOpcode hf hd
  · exact statusSound_raiseIllegalMode hf hd hm
  · exact statusSound_raiseBadRegister hf hd hm hb
  · exact statusSound_of_running (by simp [hr]) (by simp [hnone])

theorem stepUnder_keeps_inv {p : Params} {s t : State} (hi : s.Inv p) (h : stepUnder p s = .next t) : t.Inv p where
  stack_wf := stepUnder_keeps_stack_wf hi.stack_wf h
  code_words := by
    rw [State.codeLen, stepUnder_code h]
    exact hi.code_words
  status_sound := stepUnder_keeps_statusSound hi.status_sound h

/-- Settles O41: each part of the invariant by the cases of what a step can answer; the machine's own step is the one
at the default parameters. -/
theorem everyStepKeepsTheInvariant : Obligations.EveryStepKeepsTheInvariant := by
  have key : ∀ (p : Params) (s t : State), s.Inv p → stepUnder p s = .next t → t.Inv p ∧ t.code = s.code :=
    fun p s t hi h => ⟨stepUnder_keeps_inv hi h, stepUnder_code h⟩
  exact ⟨key, fun s t hi h => key params s t hi (step_eq_stepUnder s ▸ h)⟩

/-! ### Reset -/

/-- Settles O40: the stack is empty, the image has no byte, and RUNNING stands with no record. -/
theorem invariantHoldsAtReset : Obligations.InvariantHoldsAtReset :=
  ⟨Memory.wf_nil, rfl, statusSound_of_running rfl rfl⟩

/-- Settles O38: nothing is written to the stack at reset, so each byte of it reads as `STACK0`. -/
theorem resetHoldsTheStatedValues : Obligations.ResetHoldsTheStatedValues :=
  ⟨fun r => by cases r <;> rfl, fun _ => rfl, rfl, rfl, rfl⟩

end Sys2Proof.Machine
end

section
/-! PROOFS. The state family: which registers an opcode touches (10_state.md R41) and the noninterference of the rest. -/

namespace Sys2Proof.Machine

/-! ### The registers an opcode touches without naming them (R41) -/

/-- The registers an opcode's effect writes beside the one B names (R41's implicit columns; the PC advance is not part
of the effect). -/
def implicitWrites : Opcode → List Reg
  | .mov | .mul | .print => []
  | .add | .sub | .cmp   => [.zf, .cf, .of]
  | .push | .pop         => [.sp]
  | .jmp | .be | .bne    => [.pc]

/-- The registers an opcode uses beside those its identifiers name: PC, which every instruction advances, ZF as a
branch's condition, and the ones its effect writes. -/
def implicitUses (op : Opcode) : List Reg :=
  .pc :: (if op = .be ∨ op = .bne then [.zf] else []) ++ implicitWrites op

theorem mem_implicitWrites {op : Opcode} {r : Reg} :
    r ∈ implicitWrites op ↔
      (r = .pc ∧ (op = .jmp ∨ op = .be ∨ op = .bne)) ∨ (r = .sp ∧ (op = .push ∨ op = .pop)) ∨
      ((r = .zf ∨ r = .cf ∨ r = .of) ∧ (op = .add ∨ op = .sub ∨ op = .cmp)) := by
  cases op <;> simp [implicitWrites]

theorem mem_implicitUses {op : Opcode} {r : Reg} :
    r ∈ implicitUses op ↔ r = .pc ∨ (r = .zf ∧ (op = .be ∨ op = .bne)) ∨ r ∈ implicitWrites op := by
  cases op <;> simp [implicitUses]

/-- The opcodes whose effect writes the register B names. -/
def writesB (op : Opcode) : Prop := op = .mov ∨ op = .add ∨ op = .sub ∨ op = .mul ∨ op = .pop

/-- An opcode's effect writes its implicit registers and the one B names, and no other. -/
theorem effect_get_of_not_written {p : Params} {i : Instr} {s : State} {r : Reg} (hi : r ∉ implicitWrites i.op)
    (hb : writesB i.op → namedReg p i.b ≠ some r) : (effect p i s).get r = s.get r := by
  cases i with
  | mov m a b | mul m a b =>
    have hb : namedReg p b ≠ some r := hb (by simp [writesB, Instr.op])
    simp [effect, movEffect, mulEffect, State.get_writeId, hb]
  | add m a b | sub m a b =>
    have hb : namedReg p b ≠ some r := hb (by simp [writesB, Instr.op])
    obtain ⟨hz, hc, ho⟩ : r ≠ .zf ∧ r ≠ .cf ∧ r ≠ .of := by simpa [implicitWrites, Instr.op] using hi
    simp [effect, addEffect, subEffect, State.get_setFlags _ _ hz hc ho, State.get_writeId, hb]
  | cmp m a b =>
    obtain ⟨hz, hc, ho⟩ : r ≠ .zf ∧ r ≠ .cf ∧ r ≠ .of := by simpa [implicitWrites, Instr.op] using hi
    exact State.get_setFlags _ _ hz hc ho
  | push m a b =>
    have hsp : r ≠ .sp := by simpa [implicitWrites, Instr.op] using hi
    simp [effect, pushEffect, hsp]
  | pop m a b =>
    have hb : namedReg p b ≠ some r := hb (by simp [writesB, Instr.op])
    have hsp : r ≠ .sp := by simpa [implicitWrites, Instr.op] using hi
    simp [effect, popEffect, State.get_writeId, hb, hsp]
  | jmp m a b =>
    have hpc : r ≠ .pc := by simpa [implicitWrites, Instr.op] using hi
    exact State.get_set_ne s _ hpc
  | be m a b | bne m a b =>
    have hpc : r ≠ .pc := by simpa [implicitWrites, Instr.op] using hi
    simp only [effect, beEffect, bneEffect]
    split <;> simp [hpc]
  | print m a b => exact State.get_emit _ _ r

/-! ### Operations that commute with a write to another register -/

theorem State.set_comm (s : State) {r r' : Reg} (x y : Byte) (h : r' ≠ r) :
    (s.set r x).set r' y = (s.set r' y).set r x := by
  have hregs : ((s.set r x).set r' y).regs = ((s.set r' y).set r x).regs := State.regs_ext fun q => by
    simp only [State.get_set]
    split_ifs <;> simp_all
  exact congrArg (fun g => { s with regs := g }) hregs

theorem State.writeId_named (s : State) {p : Params} {id : Byte} {r : Reg} (v : Byte) (h : namedReg p id = some r) :
    s.writeId p id v = s.set r v := by
  simp [State.writeId, h]

theorem State.writeId_unnamed (s : State) {p : Params} {id : Byte} (v : Byte) (h : namedReg p id = none) :
    s.writeId p id v = s := by
  simp [State.writeId, h]

theorem State.readId_set {s : State} {p : Params} {id : Byte} {r : Reg} (x : Byte) (h : namedReg p id ≠ some r) :
    (s.set r x).readId p id = s.readId p id := by
  cases hn : namedReg p id with
  | none => rw [State.readId_unnamed _ hn, State.readId_unnamed _ hn]
  | some r' =>
    have hne : r' ≠ r := fun e => h (e ▸ hn)
    rw [State.readId_named _ hn, State.readId_named _ hn, State.get_set_ne s x hne]

theorem State.writeId_set {s : State} {p : Params} {id : Byte} {r : Reg} (x v : Byte) (h : namedReg p id ≠ some r) :
    (s.set r x).writeId p id v = (s.writeId p id v).set r x := by
  cases hn : namedReg p id with
  | none => rw [State.writeId_unnamed _ _ hn, State.writeId_unnamed _ _ hn]
  | some r' =>
    have hne : r' ≠ r := fun e => h (e ▸ hn)
    rw [State.writeId_named _ _ hn, State.writeId_named _ _ hn, State.set_comm s x v hne]

theorem State.setFlags_set (s : State) (f : FlagBits) {r : Reg} (x : Byte) (hz : r ≠ .zf) (hc : r ≠ .cf)
    (ho : r ≠ .of) : (s.set r x).setFlags f = (s.setFlags f).set r x := by
  simp only [State.setFlags, State.set_comm _ x _ hz.symm, State.set_comm _ x _ hc.symm, State.set_comm _ x _ ho.symm]

theorem State.advance_set (s : State) {r : Reg} (x pre : Byte) (h : r ≠ .pc) :
    (s.set r x).advance pre = (s.advance pre).set r x := by
  simp only [State.advance, State.get_set_ne s x h.symm]
  split
  · exact State.set_comm s x _ h.symm
  · rfl

/-- An operand is resolved without a register that no identifier names (R74). -/
theorem State.resolve_set {s : State} {p : Params} {i : Instr} {r : Reg} (x : Byte)
    (h : ∀ id ∈ Instr.identifiers i, namedReg p id ≠ some r) :
    (s.set r x).resolve p i.mode i.a i.b = s.resolve p i.mode i.a i.b := by
  unfold State.resolve
  unfold Instr.identifiers at h
  cases hm : i.mode with
  | regReg => exact State.readId_set x (h _ (by simp [hm]))
  | regOnly => exact State.readId_set x (h _ (by simp [hm]))
  | regVal | valOnly => rfl

/-- In a legal form of an opcode that reads or writes the register B names, B is an identifier. -/
theorem b_mem_identifiers {i : Instr} (hm : i.modeAllowed = true) (ho : writesB i.op ∨ i.op = .cmp) :
    i.b ∈ Instr.identifiers i := by
  unfold Instr.modeAllowed at hm
  unfold Instr.identifiers
  cases hmode : i.mode with
  | regReg | regVal | regOnly => simp
  | valOnly => rcases ho with (h | h | h | h | h) | h <;> rw [h, hmode] at hm <;> cases hm

/-- Noninterference of an effect: a register that is neither named nor implicit is carried through unread. -/
theorem effect_set {p : Params} {i : Instr} (s : State) {r : Reg} (x : Byte) (hm : i.modeAllowed = true)
    (hu : r ∉ implicitUses i.op) (hn : ∀ id ∈ Instr.identifiers i, namedReg p id ≠ some r) :
    effect p i (s.set r x) = (effect p i s).set r x := by
  have hsrc := State.resolve_set (s := s) x hn
  have hb : writesB i.op ∨ i.op = .cmp → namedReg p i.b ≠ some r := fun h => hn _ (b_mem_identifiers hm h)
  cases i <;> simp only [implicitUses, implicitWrites, writesB, Instr.op, Instr.mode, Instr.a, Instr.b] at hu hb hsrc
  case mov m a b | mul m a b =>
    have hb := hb (by decide)
    simp only [effect, movEffect, mulEffect, hsrc, State.readId_set x hb, State.writeId_set x _ hb]
  case add m a b | sub m a b =>
    have hb := hb (by decide)
    obtain ⟨-, hz, hc, ho⟩ : r ≠ .pc ∧ r ≠ .zf ∧ r ≠ .cf ∧ r ≠ .of := by simpa using hu
    simp only [effect, addEffect, subEffect, hsrc, State.readId_set x hb, State.writeId_set x _ hb,
      State.setFlags_set _ _ x hz hc ho]
  case cmp m a b =>
    have hb := hb (by decide)
    obtain ⟨-, hz, hc, ho⟩ : r ≠ .pc ∧ r ≠ .zf ∧ r ≠ .cf ∧ r ≠ .of := by simpa using hu
    simp only [effect, cmpEffect, hsrc, State.readId_set x hb, State.setFlags_set _ _ x hz hc ho]
  case push m a b =>
    obtain ⟨-, hsp⟩ : r ≠ .pc ∧ r ≠ .sp := by simpa using hu
    simp only [effect, pushEffect, hsrc, State.get_set_ne s x hsp.symm]
    exact State.set_comm (s.stackWrite _ _) x _ hsp.symm
  case pop m a b =>
    have hb := hb (by decide)
    obtain ⟨-, hsp⟩ : r ≠ .pc ∧ r ≠ .sp := by simpa using hu
    simp only [effect, popEffect, State.get_set_ne s x hsp.symm, State.set_comm s x _ hsp.symm,
      State.set_stackRead, State.writeId_set x _ hb]
  case jmp m a b =>
    have hpc : r ≠ .pc := by simpa using hu
    simp only [effect, jmpEffect, hsrc, State.set_comm s x _ hpc.symm]
  case be m a b | bne m a b =>
    obtain ⟨hpc, hz, -⟩ : r ≠ .pc ∧ r ≠ .zf ∧ r ≠ .pc := by simpa using hu
    simp only [effect, beEffect, bneEffect, hsrc, State.get_set_ne s x hz.symm, State.set_comm s x _ hpc.symm]
    split <;> rfl
  case print m a b =>
    simp only [effect, printEffect, hsrc]
    rfl

/-! ### What the executor can answer -/

/-- An illegal form's answer (R104). -/
theorem exec_of_not_allowed {i : Instr} (s : State) (hm : i.modeAllowed = false) :
    exec i s = .next (s.raiseIllegalMode i.op i.mode) := by
  simp [exec_eq_execUnder, execUnder, complete, hm]

/-- Everything the machine's executor can answer (R104, R105): at the defaults no identifier ends a run. -/
theorem exec_next_cases {i : Instr} {s t : State} (h : exec i s = .next t) :
    (i.modeAllowed = true ∧ t = (effect params i s).advance (s.get .pc)) ∨
    (i.modeAllowed = false ∧ t = s.raiseIllegalMode i.op i.mode) := by
  cases hm : i.modeAllowed with
  | true => rw [exec_of_allowed s hm] at h; cases h; exact .inl ⟨rfl, rfl⟩
  | false => rw [exec_of_not_allowed s hm] at h; cases h; exact .inr ⟨rfl, rfl⟩

/-! ### Registers that play no part, and flags as side effects -/

/-- A register that no identifier names and the opcode does not use keeps its value, and a write to it before the
instruction can as well be made after it. -/
theorem exec_noninterference {i : Instr} (s : State) {r : Reg} (x : Byte) (hu : r ∉ implicitUses i.op)
    (hn : ∀ id ∈ Instr.identifiers i, ¬ Names id r) :
    ∃ t, exec i s = .next t ∧ t.get r = s.get r ∧ exec i (s.set r x) = .next (t.set r x) := by
  have hpc : r ≠ .pc := fun e => hu (mem_implicitUses.mpr (.inl e))
  have hw : r ∉ implicitWrites i.op := fun h => hu (mem_implicitUses.mpr (.inr (.inr h)))
  cases hm : i.modeAllowed with
  | true =>
    have hb : writesB i.op → namedReg params i.b ≠ some r := fun h => hn _ (b_mem_identifiers hm (.inl h))
    refine ⟨_, exec_of_allowed s hm, ?_, ?_⟩
    · rw [State.advance_get _ _ hpc, effect_get_of_not_written hw hb]
    · rw [exec_of_allowed _ hm, effect_set s x hm hu hn, State.get_set_ne s x hpc.symm, State.advance_set _ x _ hpc]
  | false =>
    refine ⟨_, exec_of_not_allowed s hm, State.get_raise .., ?_⟩
    rw [exec_of_not_allowed _ hm, State.raiseIllegalMode, State.get_set_ne s x hpc.symm]
    rfl

/-- Settles O28: each clause names a register outside the opcode's implicit uses. -/
theorem unnamedRegistersPlayNoPart : Obligations.UnnamedRegistersPlayNoPart := by
  intro i s r x hn hr
  have hu : r ∉ implicitUses i.op := by
    rw [mem_implicitUses, mem_implicitWrites]
    rcases hr with (rfl | rfl | rfl | rfl) | ⟨rfl, h⟩ | ⟨rfl, h⟩ | ⟨rfl | rfl, h⟩ <;> simp [*]
  exact exec_noninterference s x hu hn

/-- Settles O23: a flag is no implicit register of the other opcodes, so only the register B names is left; an aborting
instruction changes no register. -/
theorem onlyAddSubCmpChangeFlagsAsASideEffect : Obligations.OnlyAddSubCmpChangeFlagsAsASideEffect := by
  intro i s t r h hr hne
  by_contra hno
  simp only [not_or, not_and] at hno
  obtain ⟨ha, hs, hc, hb⟩ := hno
  have hpc : r ≠ .pc := by rintro rfl; simp at hr
  have hw : r ∉ implicitWrites i.op := by
    rw [mem_implicitWrites]
    rcases hr with rfl | rfl | rfl <;> simp [ha, hs, hc]
  have hB : writesB i.op → namedReg params i.b ≠ some r := by
    rintro (ho | ho | ho | ho | ho)
    · exact hb (.inl ho)
    · exact absurd ho ha
    · exact absurd ho hs
    · exact hb (.inr (.inl ho))
    · exact hb (.inr (.inr ho))
  rcases exec_next_cases h with ⟨-, rfl⟩ | ⟨-, rfl⟩
  · exact hne (by rw [State.advance_get _ _ hpc, effect_get_of_not_written hw hB])
  · exact hne (State.get_raise ..)

end Sys2Proof.Machine
end

section
/-! PROOFS. The state family: the values the flag logic writes (10_state.md R27, R31). -/

namespace Sys2Proof.Machine

/-- ADD, SUB and CMP end by writing the three flags; CMP's are those of a comparison (R121, R122, R124). -/
theorem effect_eq_setFlags {p : Params} {i : Instr} (s : State) (h : i.op = .add ∨ i.op = .sub ∨ i.op = .cmp) :
    ∃ (u : State) (f : FlagBits), effect p i s = u.setFlags f ∧ (i.op = .cmp → ∃ v1 v2, f = cmpFlags v1 v2) := by
  cases i with
  | add m a b | sub m a b => exact ⟨_, _, rfl, nofun⟩
  | cmp m a b => exact ⟨_, _, rfl, fun _ => ⟨_, _, rfl⟩⟩
  | _ => rcases h with h | h | h <;> cases h

/-- CMP's conditions are the three cases of the signed difference's sign (R124, R31). -/
theorem cmpFlags_exactly_one (v1 v2 : Byte) :
    (flagByte (cmpFlags v1 v2).zf).toNat + (flagByte (cmpFlags v1 v2).cf).toNat +
      (flagByte (cmpFlags v1 v2).of).toNat = 1 := by
  rcases Int.lt_trichotomy (cmpDiff v1 v2) 0 with h | h | h
  · have hz : cmpDiff v1 v2 ≠ 0 := by omega
    have hc : ¬ 1 ≤ cmpDiff v1 v2 := by omega
    have ho : cmpDiff v1 v2 ≤ -1 := by omega
    simp [cmpFlags, flagByte, hz, hc, ho]
  · simp [cmpFlags, flagByte, h]
  · have hz : cmpDiff v1 v2 ≠ 0 := by omega
    have hc : 1 ≤ cmpDiff v1 v2 := by omega
    have ho : ¬ cmpDiff v1 v2 ≤ -1 := by omega
    simp [cmpFlags, flagByte, hz, hc, ho]

theorem State.setFlags_zero_or_one (s : State) (f : FlagBits) {r : Reg} (hr : r = .zf ∨ r = .cf ∨ r = .of) :
    (s.setFlags f).get r = 0#8 ∨ (s.setFlags f).get r = 1#8 := by
  rcases hr with rfl | rfl | rfl <;> exact flagByte_zero_or_one _

/-- Settles O22: the effect ends with the flag write, and the advance keeps the flags. -/
theorem flagLogicWritesZeroOrOneAndCmpExactlyOne : Obligations.FlagLogicWritesZeroOrOneAndCmpExactlyOne := by
  intro i s ho hmode
  have hm : i.modeAllowed = true := modeAllowed_two (by tauto) hmode
  obtain ⟨u, f, he, hcmp⟩ := effect_eq_setFlags (p := params) s ho
  have hget : ∀ r, r = .zf ∨ r = .cf ∨ r = .of →
      ((effect params i s).advance (s.get .pc)).get r = (u.setFlags f).get r := fun r hr => by
    have hpc : r ≠ .pc := by rintro rfl; simp at hr
    rw [State.advance_get _ _ hpc, he]
  refine ⟨_, exec_of_allowed s hm, fun r hr => ?_, fun hc => ?_⟩
  · rw [hget r hr]
    exact State.setFlags_zero_or_one u f hr
  · obtain ⟨v1, v2, rfl⟩ := hcmp hc
    rw [hget .zf (by simp), hget .cf (by simp), hget .of (by simp)]
    exact cmpFlags_exactly_one v1 v2

end Sys2Proof.Machine
end

section
/-! PROOFS. The state family: register identifiers (10_state.md R21) and the two policies for those out of range (R22). -/

namespace Sys2Proof.Machine

/-! ### The identifier map -/

theorem namedReg_eq_some_iff {p : Params} (h : Function.Injective p.regIdOf) {id : Byte} {r : Reg} :
    namedReg p id = some r ↔ p.regIdOf r = id :=
  ⟨regIdOf_of_namedReg, fun e => e ▸ namedReg_regIdOf h r⟩

theorem namedReg_eq_none_iff {p : Params} {id : Byte} : namedReg p id = none ↔ ∀ r, p.regIdOf r ≠ id := by
  have hall : ∀ r, r ∈ Reg.all := fun r => by cases r <;> decide
  simp [namedReg, hall]

/-- R21's default map (92 D2): a register's identifier is its place in the list of R20. -/
theorem getElem?_regAll_eq_some_iff {n : Nat} {r : Reg} :
    Reg.all[n]? = some r ↔ (params.regIdOf r).toNat = n := by
  constructor
  · intro h
    obtain ⟨hn, rfl⟩ := List.getElem?_eq_some_iff.mp h
    change n < 9 at hn
    interval_cases n <;> rfl
  · rintro rfl
    cases r <;> rfl

/-- Settles O26: the first nine identifiers are the places in the list of registers, and no other is in the map. -/
theorem registerIdentifiersReadAndWriteTheirRegister : Obligations.RegisterIdentifiersReadAndWriteTheirRegister := by
  refine ⟨fun s id v r h => ?_, fun s id v h => ?_⟩
  · have hid : namedReg params id = some r :=
      (namedReg_eq_some_iff params_wf.regIdOf_inj).mpr (BitVec.eq_of_toNat_eq (getElem?_regAll_eq_some_iff.mp h))
    rw [s.writeId_named v hid]
    exact ⟨s.readId_named hid, s.get_set_same r v, fun r' hr => s.get_set_ne v hr, rfl, ⟨rfl, rfl, rfl⟩, rfl⟩
  · have hlt : ∀ r, (params.regIdOf r).toNat < 9 := fun r => by cases r <;> decide
    have hid : namedReg params id = none := namedReg_eq_none_iff.mpr fun r e => by
      have := hlt r
      rw [e] at this
      omega
    exact ⟨s.readId_unnamed hid, s.writeId_unnamed v hid⟩

/-! ### The Fault policy -/

theorem badIdentifier_eq_none_iff {p : Params} (hp : p.badRegPolicy = .fault) {i : Instr} :
    badIdentifier p i = none ↔ ∀ id ∈ Instr.identifiers i, namedReg p id ≠ none := by
  have hfilter : ((Instr.identifiers i).filter fun id => (namedReg p id).isNone) = [] ↔
      ∀ id ∈ Instr.identifiers i, namedReg p id ≠ none := by simp
  rw [← hfilter]
  simp only [badIdentifier, hp]
  split <;> simp_all

/-- No effect looks at the policy. -/
theorem effect_badRegPolicy (p : Params) (q : BadRegPolicy) (i : Instr) (s : State) :
    effect { p with badRegPolicy := q } i s = effect p i s := by
  cases i <;> rfl

/-- Settles O27: under the Fault policy the identifier check passes exactly when every identifier names a register. -/
theorem faultPolicyAbortsOnUnnamedIdentifiers : Obligations.FaultPolicyAbortsOnUnnamedIdentifiers := by
  refine fun p i s hp hm => ⟨fun ⟨x, hx, hxn⟩ => ?_, fun hall => ?_⟩
  · cases hb : badIdentifier p i with
    | none => exact absurd hxn ((badIdentifier_eq_none_iff hp).mp hb x hx)
    | some id =>
      obtain ⟨-, hid, hn⟩ := badIdentifier_some hb
      exact ⟨s.raiseBadRegister i.op id, by simp [execUnder, complete, hm, hb], rfl, ⟨id, hid, hn, rfl⟩,
        fun r _ => State.get_raise .., fun _ => rfl, rfl, rfl⟩
  · rw [execUnder, execUnder, complete_of_allowed _ _ hm ((badIdentifier_eq_none_iff hp).mpr hall),
      complete_of_allowed _ _ hm (badIdentifier_ignore rfl i), effect_badRegPolicy p .ignore i s]

end Sys2Proof.Machine
end

section
/-! PROOFS. The state family: the stack's one writer (10_state.md R33, 20_memory.md R53). -/

namespace Sys2Proof.Machine

/-- Only PUSH writes the stack, and only the byte at SP (R140). -/
theorem effect_stackRead (p : Params) (i : Instr) (s : State) (k : Byte) :
    (effect p i s).stackRead k =
      if i.op = .push ∧ k = s.get .sp then s.resolve p i.mode i.a i.b else s.stackRead k := by
  cases i with
  | push m a b => simp [effect, pushEffect, State.stackRead_stackWrite, Instr.op, Instr.mode, Instr.a, Instr.b]
  | be m a b | bne m a b => simp only [effect, beEffect, bneEffect]; split <;> rfl
  | _ => simp [effect, movEffect, addEffect, subEffect, mulEffect, cmpEffect, popEffect, jmpEffect, printEffect,
      Instr.op]

/-- A fetched word that decodes to an instruction is what the byte decoder reads at PC. -/
theorem decodeBytes_of_fetch? {s : State} {w : Word} {i : Instr} (hf : s.fetch? = some w) (hd : decode w = .known i) :
    ∃ rest, decodeBytes (s.code.drop s.fetchOffset) = .ok (i, rest) := by
  obtain ⟨⟨w', rest⟩, ht, rfl⟩ := Option.map_eq_some_iff.mp hf
  exact ⟨rest, by simp only [decodeBytes, ht, hd]⟩

theorem exists_eq_push {i : Instr} (h : i.op = .push) : ∃ m a b, i = .push m a b :=
  match i, h with
  | .push m a b, _ => ⟨m, a, b, rfl⟩

/-- PUSH allows the one-operand modes alone (R79). -/
theorem mode_of_push_allowed {m : Mode} {a b : Byte} (h : (Instr.push m a b).modeAllowed = true) :
    m = .regOnly ∨ m = .valOnly := by
  cases m with
  | regReg | regVal => cases h
  | regOnly => exact .inl rfl
  | valOnly => exact .inr rfl

/-- Settles O36: every other way a step can end keeps the stack, and among the effects only PUSH's writes it. -/
theorem onlyPushChangesTheStack : Obligations.OnlyPushChangesTheStack := by
  intro s t k h hne
  rw [step_eq_stepUnder] at h
  rcases stepUnder_ends_or_completes h with ⟨st, d, rfl⟩ | ⟨w, i, hf, hd, hm, rfl⟩
  · exact absurd rfl hne
  · rw [State.advance_stackRead, effect_stackRead] at hne
    obtain ⟨hop, hk⟩ : i.op = .push ∧ k = s.get .sp := by
      by_contra hno
      exact hne (if_neg hno)
    obtain ⟨m, a, b, rfl⟩ := exists_eq_push hop
    obtain ⟨rest, hrest⟩ := decodeBytes_of_fetch? hf hd
    exact ⟨hk, m, a, b, rest, mode_of_push_allowed hm, hrest⟩

end Sys2Proof.Machine
end

section
/-! PROOFS. The memory family: the code image's words (20_memory.md R50; 40_dispatch.md R102) and its constancy along
every run (R61). -/

namespace Sys2Proof.Machine

/-! ### The fetched word's value (R50) -/

/-- One more byte at the low end: the value so far is scaled by 256. -/
theorem toNat_append_byte {n : Nat} (x : BitVec n) (b : Byte) : (x ++ b).toNat = x.toNat * 2 ^ 8 + b.toNat := by
  rw [BitVec.toNat_append, ← Nat.shiftLeft_add_eq_or_of_lt b.isLt, Nat.shiftLeft_eq]

theorem State.fetch?_of_drop {s : State} {b0 b1 b2 b3 : Byte} {rest : List Byte}
    (h : s.code.drop s.fetchOffset = b0 :: b1 :: b2 :: b3 :: rest) : s.fetch? = some (b0 ++ b1 ++ b2 ++ b3) := by
  rw [State.fetch?, h]
  rfl

/-- Settles O29: the fetch appends the four bytes, and each append scales the value before it by 256. -/
theorem fetchAssemblesBigEndian : Obligations.FetchAssemblesBigEndian := by
  intro s b0 b1 b2 b3 rest h
  refine ⟨_, State.fetch?_of_drop h, ?_⟩
  have hval : (b0 ++ b1 ++ b2 ++ b3).toNat = ((b0.toNat * 2 ^ 8 + b1.toNat) * 2 ^ 8 + b2.toNat) * 2 ^ 8 + b3.toNat := by
    simp only [toNat_append_byte]
  exact hval.trans (by ring)

/-! ### Runs -/

/-- What every step of a machine keeps, every run of it keeps. -/
theorem run_keeps {M : Host.Core} {P : M.State → Prop} (hstep : ∀ s t, P s → M.step s = .next t → P t) {k : Nat}
    {s t : M.State} (hs : P s) (h : M.run k s = .next t) : P t := by
  induction k generalizing s with
  | zero => cases h; exact hs
  | succ k ih =>
    rw [Host.Core.run] at h
    split at h
    case h_1 s' hnext => exact ih (hstep s s' hs hnext) h
    all_goals cases h

/-- An accepted image is loaded whole into the reset state (R236, R237). -/
theorem State.load_of_accepted {image : List Byte} (h : imageAccepted image = true) :
    State.load (some image) = { State.reset with code := image } := by
  simp [State.load, h]

theorem State.load_inv {p : Params} {image : List Byte} (h : imageAccepted image = true) :
    (State.load (some image)).Inv p := by
  rw [State.load_of_accepted h]
  exact ⟨Memory.wf_nil, by simpa [imageAccepted, State.codeLen] using h, statusSound_of_running rfl rfl⟩

/-- R112: after an abnormal end PC selects the offending word and the record holds that PC. -/
theorem fetch?_and_diagPc_of_endedAbnormally {p : Params} {s : State} (hs : StatusSound p s)
    (he : s.EndedAbnormally) : ∃ w, s.fetch? = some w ∧ s.diagPc = some (s.get .pc) := by
  unfold StatusSound at hs
  rcases he with he | he <;> rw [he] at hs
  · obtain ⟨w, opc, hf, -, hd⟩ := hs
    exact ⟨w, hf, by simp only [State.diagPc, hd]⟩
  · obtain ⟨w, i, hf, -, ⟨-, hd⟩ | ⟨-, -, id, -, -, hd⟩⟩ := hs
    all_goals exact ⟨w, hf, by simp only [State.diagPc, hd]⟩

/-- Settles O42: the load of an accepted image has the invariant, every step keeps it and the image (O41), and the
invariant says how an abnormal end stands. -/
theorem everyRunOfALoadedImageKeepsTheInvariant : Obligations.EveryRunOfALoadedImageKeepsTheInvariant := by
  intro p image ha k t h
  have hinit : (State.load (some image)).Inv p ∧ (State.load (some image)).code = image :=
    ⟨State.load_inv ha, by rw [State.load_of_accepted ha]⟩
  obtain ⟨hstep, -⟩ := everyStepKeepsTheInvariant
  obtain ⟨hinv, hcode⟩ : t.Inv p ∧ t.code = image :=
    run_keeps (P := fun u : State => u.Inv p ∧ u.code = image)
      (fun s u ⟨hi, hc⟩ hu => (hstep p s u hi hu).imp_right fun hcu => hcu.trans hc) hinit h
  exact ⟨hinv, hcode, fetch?_and_diagPc_of_endedAbnormally hinv.status_sound⟩

end Sys2Proof.Machine
end

section
/-! PROOFS. The encoding family: the decoder and the encoder as statements about the word's fields (30_encoding.md R71,
R76), and the two as inverses of each other up to the don't-care bits (R84). -/

namespace Sys2Proof

/-! ### The decoder in terms of the word's fields (R71, R76) -/

theorem opcodeNamed_eq_some_iff {f : Opcode → BitVec 6} (hf : Function.Injective f) {opc : BitVec 6} {op : Opcode} :
    opcodeNamed f opc = some op ↔ opc = f op :=
  ⟨fun h => (opcodeOf_of_opcodeNamed h).symm, fun h => h ▸ opcodeNamed_opcodeOf hf op⟩

theorem Mode.ofBits_eq_iff {b : BitVec 2} {m : Mode} : Mode.ofBits b = m ↔ b = m.bits :=
  ⟨fun h => h ▸ (Mode.bits_ofBits b).symm, fun h => h ▸ Mode.ofBits_bits m⟩

theorem Instr.build_eq_iff {op : Opcode} {m : Mode} {a b : Byte} {i : Instr} :
    Instr.build op m a b = i ↔ op = i.op ∧ m = i.mode ∧ a = i.a ∧ b = i.b := by
  constructor
  · rintro rfl
    simp
  · rintro ⟨rfl, rfl, rfl, rfl⟩
    exact i.build_self

theorem decodeUnder_eq_known_iff {f : Opcode → BitVec 6} (hf : Function.Injective f) {w : Word} {i : Instr} :
    decodeUnder f w = .known i ↔
      opcodeField w = f i.op ∧ modeField w = i.mode.bits ∧ aField w = i.a ∧ bField w = i.b := by
  rw [← opcodeNamed_eq_some_iff hf, ← Mode.ofBits_eq_iff, decodeUnder]
  cases opcodeNamed f (opcodeField w) with
  | none => simp
  | some op => simp [Instr.build_eq_iff]

theorem decodeUnder_eq_unknown_iff {f : Opcode → BitVec 6} {w : Word} {opc : BitVec 6} :
    decodeUnder f w = .unknown opc ↔ opc = opcodeField w ∧ ∀ op, f op ≠ opc := by
  rw [decodeUnder]
  cases h : opcodeNamed f (opcodeField w) with
  | none =>
    have hnone := opcodeNamed_eq_none.mp h
    exact ⟨by rintro ⟨⟩; exact ⟨rfl, hnone⟩, by rintro ⟨rfl, -⟩; rfl⟩
  | some op =>
    have hop := opcodeOf_of_opcodeNamed h
    exact ⟨nofun, by rintro ⟨rfl, hno⟩; exact absurd hop (hno op)⟩

/-- The decoder reads its four fields and nothing else of the word (R72). -/
theorem decodeUnder_congr (f : Opcode → BitVec 6) {w w' : Word} (ho : opcodeField w = opcodeField w')
    (hm : modeField w = modeField w') (ha : aField w = aField w') (hb : bField w = bField w') :
    decodeUnder f w = decodeUnder f w' := by
  rw [decodeUnder, decodeUnder, ho, hm, ha, hb]

/-! ### Decoding an encoded instruction (R84) -/

theorem Instr.canonical_of_isCanonical {i : Instr} (h : i.isCanonical = true) : i.canonical = i := by
  have ha : (if i.mode.usesA then i.a else 0#8) = i.a := by
    cases hu : i.mode.usesA <;> simp_all [Instr.isCanonical]
  rw [Instr.canonical, ha, Instr.build_self]

theorem decodeUnder_encodeUnder {f : Opcode → BitVec 6} (hf : Function.Injective f) (i : Instr) :
    decodeUnder f (encodeUnder f i) = .known i.canonical := by
  rw [decodeUnder_eq_known_iff hf, opcodeField_encodeUnder, modeField_encodeUnder, aField_encodeUnder,
    bField_encodeUnder]
  simp [Instr.canonical]

/-- Settles O6: the fields of the encoded word are those of the canonical instruction. -/
theorem decodeOfEncodeIsTheInstruction : Obligations.DecodeOfEncodeIsTheInstruction := by
  refine fun f hf i => ⟨decodeUnder_encodeUnder hf i, fun hc => ?_⟩
  rw [decodeUnder_encodeUnder hf, Instr.canonical_of_isCanonical hc]

/-! ### The example words (R87) -/

/-- Settles O1: the example instructions are canonical and the words are their encodings, so each word decodes to its
instruction (O6). -/
theorem exampleWordsDecodeAndEncode : Obligations.ExampleWordsDecodeAndEncode := by
  have hencode : ∀ x ∈ exampleWords, encode x.2 = x.1 ∧ x.2.isCanonical = true := by decide
  intro x hx
  obtain ⟨he, hc⟩ := hencode x hx
  obtain ⟨-, hdecode⟩ := decodeOfEncodeIsTheInstruction defaultOpcodeOf defaultOpcodeOf_injective x.2
  exact ⟨he ▸ hdecode hc, he⟩

/-! ### The fields as numbers (R71) -/

theorem opcodeField_toNat (w : Word) : (opcodeField w).toNat = w.toNat / 2 ^ 26 := by
  have := w.isLt
  rw [opcodeField, BitVec.extractLsb'_toNat, Nat.shiftRight_eq_div_pow]
  omega

theorem modeField_toNat (w : Word) : (modeField w).toNat = w.toNat / 2 ^ 24 % 4 := by
  rw [modeField, BitVec.extractLsb'_toNat, Nat.shiftRight_eq_div_pow]

theorem aField_toNat (w : Word) : (aField w).toNat = w.toNat / 2 ^ 8 % 256 := by
  rw [aField, BitVec.extractLsb'_toNat, Nat.shiftRight_eq_div_pow]

theorem bField_toNat (w : Word) : (bField w).toNat = w.toNat % 256 := by
  rw [bField, BitVec.extractLsb'_toNat, Nat.shiftRight_zero]

/-- Settles O3: the decoder's four fields, read as numbers. -/
theorem decodedInstructionIsTheWordsFields : Obligations.DecodedInstructionIsTheWordsFields := by
  intro f hf w i
  rw [decodeUnder_eq_known_iff hf, ← opcodeField_toNat, ← modeField_toNat, ← aField_toNat, ← bField_toNat]
  simp only [BitVec.toNat_inj, eq_comm]

/-- The default map (92 D1) assigns the values below 11 and no other. -/
theorem defaultOpcodeOf_unassigned_iff (opc : BitVec 6) : (∀ op, defaultOpcodeOf op ≠ opc) ↔ 11 ≤ opc.toNat := by
  rw [← opcodeNamed_eq_none]
  revert opc
  decide

/-- Settles O4: a word is unknown exactly when its opcode field is unassigned, and the default map leaves 11 and above
unassigned. -/
theorem unknownOpcodesAreTheUnassignedValues : Obligations.UnknownOpcodesAreTheUnassignedValues := by
  refine ⟨fun f w opc => ?_, fun w => ?_⟩
  · rw [decodeUnder_eq_unknown_iff, ← opcodeField_toNat, BitVec.toNat_inj]
  · simp only [decode, decodeUnder_eq_unknown_iff, exists_eq_left, defaultOpcodeOf_unassigned_iff, opcodeField_toNat]

/-! ### Masked words: fields kept, fields cleared -/

section Masks
variable {w w' mask : Word} {start len : Nat}

theorem extractLsb'_and_of_kept (h : mask.extractLsb' start len = BitVec.allOnes len) :
    (w &&& mask).extractLsb' start len = w.extractLsb' start len := by
  rw [BitVec.extractLsb'_and, h, BitVec.and_allOnes]

theorem extractLsb'_and_of_cleared (h : mask.extractLsb' start len = 0#len) :
    (w &&& mask).extractLsb' start len = 0#len := by
  rw [BitVec.extractLsb'_and, h, BitVec.and_zero]

/-- Words that differ only outside the mask agree on every field inside it. -/
theorem extractLsb'_eq_of_xor_and_eq_zero (h : mask.extractLsb' start len = BitVec.allOnes len)
    (hw : (w ^^^ w') &&& mask = 0#32) : w.extractLsb' start len = w'.extractLsb' start len := by
  rw [← BitVec.xor_eq_zero_iff, ← BitVec.extractLsb'_xor, ← extractLsb'_and_of_kept h, hw, BitVec.extractLsb'_zero]

end Masks

/-- A word is its five fields in order (R71). -/
theorem word_eq_append_fields (w : Word) :
    w = opcodeField w ++ modeField w ++ w.extractLsb' 16 8 ++ aField w ++ bField w := by
  apply BitVec.eq_of_getLsbD_eq
  intro k hk
  simp only [opcodeField, modeField, aField, bField, BitVec.getLsbD_extractLsb', BitVec.getLsbD_append]
  interval_cases k <;> simp

theorem Mode.usesA_iff {m : Mode} : m.usesA = true ↔ m = .regReg ∨ m = .regVal := by
  cases m <;> decide

/-- A mask that keeps the opcode, the mode and B and clears bits 23:16 does so field by field; A is as the mask leaves
it. -/
theorem and_mask_eq_append_fields {w mask : Word} (ho : opcodeField mask = BitVec.allOnes 6)
    (hm : modeField mask = BitVec.allOnes 2) (hu : mask.extractLsb' 16 8 = 0#8) (hb : bField mask = BitVec.allOnes 8) :
    w &&& mask = opcodeField w ++ modeField w ++ 0#8 ++ aField (w &&& mask) ++ bField w := by
  have ho' : opcodeField (w &&& mask) = opcodeField w := extractLsb'_and_of_kept ho
  have hm' : modeField (w &&& mask) = modeField w := extractLsb'_and_of_kept hm
  have hb' : bField (w &&& mask) = bField w := extractLsb'_and_of_kept hb
  calc w &&& mask
      = opcodeField (w &&& mask) ++ modeField (w &&& mask) ++ (w &&& mask).extractLsb' 16 8 ++ aField (w &&& mask) ++
          bField (w &&& mask) := word_eq_append_fields _
    _ = opcodeField w ++ modeField w ++ 0#8 ++ aField (w &&& mask) ++ bField w := by
      rw [ho', hm', hb', extractLsb'_and_of_cleared hu]

/-- R84: under an injective map the encoding of a decoded word is that word with bits 23:16 zero, and A too where the
mode does not use it. -/
theorem encodeUnder_of_decodeUnder {f : Opcode → BitVec 6} (hf : Function.Injective f) {w : Word} {i : Instr}
    (h : decodeUnder f w = .known i) :
    encodeUnder f i =
      opcodeField w ++ modeField w ++ 0#8 ++ (if i.mode.usesA then aField w else 0#8) ++ bField w := by
  obtain ⟨ho, hm, ha, hb⟩ := (decodeUnder_eq_known_iff hf).mp h
  rw [encodeUnder, ← ho, ← hm, ← ha, ← hb]

/-- Settles O7: field by field, each mask keeps what the encoder writes and clears what it zeroes. -/
theorem encodeOfDecodeClearsTheIgnoredBits : Obligations.EncodeOfDecodeClearsTheIgnoredBits := by
  intro f hf w i h
  rw [encodeUnder_of_decodeUnder hf h]
  simp only [← Mode.usesA_iff]
  split
  · have ha : aField (w &&& 0xFF00FFFF#32) = aField w := extractLsb'_and_of_kept rfl
    rw [and_mask_eq_append_fields rfl rfl rfl rfl, ha]
  · have ha : aField (w &&& 0xFF0000FF#32) = 0#8 := extractLsb'_and_of_cleared rfl
    rw [and_mask_eq_append_fields rfl rfl rfl rfl, ha]

/-! ### The legal forms (R79) -/

/-- Settles O2: one row of R79's table per kind of opcode. -/
theorem legalFormsAreTheTwentyOnePairs : Obligations.LegalFormsAreTheTwentyOnePairs := by
  refine ⟨fun op m => ?_, rfl⟩
  cases op with
  | mov | add | sub | mul | cmp => cases m <;> simp [Opcode.allows]
  | push | jmp | be | bne | print => cases m <;> simp [Opcode.allows]
  | pop => cases m <;> simp [Opcode.allows]

end Sys2Proof
end

section
/-! PROOFS. The encoding family: operand A of a one-operand form (30_encoding.md R74), and the totality of the step over
every word (R77; 40_dispatch.md R110). -/

namespace Sys2Proof.Machine

/-! ### Operand A of a one-operand form -/

/-- R74: the one-operand modes resolve to B or to the register it names. -/
theorem State.resolve_eq_of_one_operand (s : State) (p : Params) {m : Mode} (a a' b : Byte)
    (hm : m = .regOnly ∨ m = .valOnly) : s.resolve p m a b = s.resolve p m a' b := by
  rcases hm with rfl | rfl <;> rfl

/-- An opcode's effect sees A only through the operand it resolves. -/
theorem effect_build_congr {p : Params} (op : Opcode) {m : Mode} {a a' b : Byte} {s : State}
    (h : s.resolve p m a b = s.resolve p m a' b) :
    effect p (Instr.build op m a b) s = effect p (Instr.build op m a' b) s := by
  cases op <;> simp only [Instr.build, effect, movEffect, addEffect, subEffect, mulEffect, cmpEffect, pushEffect,
    jmpEffect, beEffect, bneEffect, printEffect, h]

theorem modeAllowed_build (op : Opcode) (m : Mode) (a b : Byte) :
    (Instr.build op m a b).modeAllowed = op.allows m := by
  simp [Instr.modeAllowed]

/-- A form whose operand resolves alike for two values of A runs alike: the mode check does not read A, and the effect
reads it only through the operand. -/
theorem exec_build_congr (op : Opcode) {m : Mode} {a a' b : Byte} {s : State}
    (h : s.resolve params m a b = s.resolve params m a' b) :
    exec (Instr.build op m a b) s = exec (Instr.build op m a' b) s := by
  cases hm : op.allows m with
  | true =>
    have hallowed : ∀ x, (Instr.build op m x b).modeAllowed = true := fun x => (modeAllowed_build ..).trans hm
    rw [exec_of_allowed s (hallowed a), exec_of_allowed s (hallowed a'), effect_build_congr op h]
  | false =>
    have hillegal : ∀ x, (Instr.build op m x b).modeAllowed = false := fun x => (modeAllowed_build ..).trans hm
    rw [exec_of_not_allowed s (hillegal a), exec_of_not_allowed s (hillegal a')]
    simp

/-- Settles O5: the decoder's four fields lie inside the mask, and a one-operand form resolves its operand without A. -/
theorem ignoredBitsNeverChangeTheOutcome : Obligations.IgnoredBitsNeverChangeTheOutcome := by
  refine ⟨fun f w w' hw => ?_, fun op m a a' b s hm => ?_⟩
  · have hkept {start len : Nat} (h : (0xFF00FFFF#32).extractLsb' start len = BitVec.allOnes len) :
        w.extractLsb' start len = w'.extractLsb' start len := extractLsb'_eq_of_xor_and_eq_zero h hw
    exact decodeUnder_congr f (hkept rfl) (hkept rfl) (hkept rfl) (hkept rfl)
  · exact exec_build_congr op (s.resolve_eq_of_one_operand params a a' b hm)

/-! ### The step from RUNNING -/

theorem execUnder_completes (p : Params) (i : Instr) (s : State) : ∃ t, execUnder p i s = .next t := by
  rcases execUnder_cases (p := p) (i := i) (s := s) rfl with ⟨-, -, h⟩ | ⟨-, id, -, h⟩ | ⟨-, h⟩ <;> exact ⟨_, h⟩

theorem stepUnder_completes (p : Params) {s : State} (hs : s.status = .running) : ∃ t, stepUnder p s = .next t := by
  rcases stepUnder_cases (p := p) (s := s) rfl with ⟨hne, -⟩ | ⟨-, -, h⟩ | ⟨-, w, opc, -, -, h⟩ | ⟨-, w, i, -, -, h⟩
  · exact absurd hs hne
  · exact ⟨_, h⟩
  · exact ⟨_, h⟩
  · rw [h]
    exact execUnder_completes p i s

/-- Settles O34: of the ways a step can answer, only the terminal status's is no next state. -/
theorem runningStepAlwaysCompletes : Obligations.RunningStepAlwaysCompletes := by
  intro p s hs
  rw [step_eq_stepUnder]
  exact ⟨stepUnder_completes p hs, stepUnder_completes params hs⟩

end Sys2Proof.Machine
end

section
/-! PROOFS. The dispatch family: the loop's one iteration, an equation per way it can go (40_dispatch.md R100 to R103),
and the frame of an instruction, illegal and legal (R104, R105). -/

namespace Sys2Proof.Machine

/-! ### An instruction's mode check and PC advance -/

/-- Settles O19: an illegal form's answer is the raise of IllegalMode on the state it was fetched in, whose effect has
not run. -/
theorem illegalModeAbortsBeforeAnyWrite : Obligations.IllegalModeAbortsBeforeAnyWrite :=
  fun i s hm => ⟨s.raiseIllegalMode i.op i.mode, exec_of_not_allowed s hm, rfl, rfl, fun _ _ => State.get_raise ..,
    fun _ => rfl, rfl, rfl⟩

/-- Settles O20: a legal form's answer is the advance of its effect, and the advance writes PC alone. -/
theorem pcAdvancesOnlyWhenItsValueIsUnchanged : Obligations.PcAdvancesOnlyWhenItsValueIsUnchanged := by
  intro i s hm
  refine ⟨(effect params i s).advance (s.get .pc), exec_of_allowed s hm, fun heq => ?_, fun hne => ?_,
    fun r hr => State.advance_get _ _ hr, State.advance_stack .., ⟨State.advance_code .., State.advance_status ..,
    State.advance_diag ..⟩, State.advance_out ..⟩
  · rw [State.advance_pc, if_pos heq, BitVec.toNat_add]
    rfl
  · rw [State.advance_pc, if_neg hne]

/-! ### The step, one equation per case of the loop -/

/-- R100, R111. -/
theorem step_of_not_running {s : State} (h : s.status ≠ .running) : step s = .fault (.noStep s.status) := by
  rw [step_eq_stepUnder]
  rcases stepUnder_cases (p := params) (s := s) rfl with ⟨-, ho⟩ | ⟨hs, -⟩ | ⟨hs, -⟩ | ⟨hs, -⟩
  · exact ho
  all_goals exact absurd hs h

theorem step_of_running {s : State} (hs : s.status = .running) : step s = runningStep params exec s := by
  simp only [step, loopStep, hs]

/-- R101. -/
theorem step_of_fetch?_none {s : State} (hs : s.status = .running) (hf : s.fetch? = none) :
    step s = .next s.haltEnd := by
  simp only [step_of_running hs, runningStep, hf]

/-- R103. -/
theorem step_of_unknown {s : State} {w : Word} {opc : BitVec 6} (hs : s.status = .running) (hf : s.fetch? = some w)
    (hd : decode w = .unknown opc) : step s = .next (s.raiseUnknownOpcode opc) := by
  simp only [step_of_running hs, runningStep, hf, decodeUnder_params, hd]

/-- R102, R106. -/
theorem step_of_known {s : State} {w : Word} {i : Instr} (hs : s.status = .running) (hf : s.fetch? = some w)
    (hd : decode w = .known i) : step s = exec i s := by
  simp only [step_of_running hs, runningStep, hf, decodeUnder_params, hd]

/-- Settles O33: `step_of_not_running` at every terminal status. -/
theorem terminalStatusHasNoStep : Obligations.TerminalStatusHasNoStep :=
  fun _ => step_of_not_running

/-- Settles O31: past the last word nothing is fetched. -/
theorem stepPastTheLastWordHalts : Obligations.StepPastTheLastWordHalts :=
  fun s hs hlen => step_of_fetch?_none hs ((fetch?_eq_none_iff s).mpr hlen)

/-! ### The bytes at PC -/

/-- An instruction the byte decoder reads at PC is the one the fetched word decodes to. -/
theorem fetch?_of_decodeBytes {s : State} {i : Instr} {rest : List Byte}
    (h : decodeBytes (s.code.drop s.fetchOffset) = .ok (i, rest)) : ∃ w, s.fetch? = some w ∧ decode w = .known i := by
  unfold decodeBytes at h
  split at h
  case h_1 => cases h
  case h_2 w rest' ht =>
    split at h
    case h_1 j hd =>
      cases h
      exact ⟨w, by rw [State.fetch?, ht]; rfl, hd⟩
    case h_2 => cases h

/-- Settles O30: the word fetched is the one the byte decoder reads. -/
theorem stepRunsTheDecodedInstruction : Obligations.StepRunsTheDecodedInstruction := by
  intro s i rest hs h
  obtain ⟨w, hf, hd⟩ := fetch?_of_decodeBytes h
  exact step_of_known hs hf hd

/-- The opcode field of a big-endian word is the upper six bits of its first byte (R50, R71). -/
theorem opcodeField_append_bytes (b0 b1 b2 b3 : Byte) :
    opcodeField (b0 ++ b1 ++ b2 ++ b3) = BitVec.ofNat 6 (b0.toNat / 4) := by
  apply BitVec.eq_of_toNat_eq
  have hfield : (opcodeField (b0 ++ b1 ++ b2 ++ b3)).toNat =
      (((b0.toNat * 2 ^ 8 + b1.toNat) * 2 ^ 8 + b2.toNat) * 2 ^ 8 + b3.toNat) / 2 ^ 26 := by
    rw [opcodeField_toNat]
    simp only [toNat_append_byte]
  rw [hfield, BitVec.toNat_ofNat]
  omega

/-- Under the default map an opcode field of 11 or more is unknown (92 D1). -/
theorem decode_eq_unknown {w : Word} (h : 11 ≤ (opcodeField w).toNat) : decode w = .unknown (opcodeField w) :=
  decodeUnder_eq_unknown_iff.mpr ⟨rfl, (defaultOpcodeOf_unassigned_iff _).mpr h⟩

/-- Settles O32: the opcode field of the fetched word is that of its first byte, and the default map leaves 11 and above
unassigned. -/
theorem stepOnUnknownOpcodeHalts : Obligations.StepOnUnknownOpcodeHalts := by
  intro s b0 b1 b2 b3 rest hs hcode hopc
  have hfield := opcodeField_append_bytes b0 b1 b2 b3
  have hunassigned : 11 ≤ (opcodeField (b0 ++ b1 ++ b2 ++ b3)).toNat := by
    rw [hfield, BitVec.toNat_ofNat]
    omega
  rw [step_of_unknown hs (State.fetch?_of_drop hcode) (decode_eq_unknown hunassigned), hfield]
  rfl

end Sys2Proof.Machine
end

section
/-! PROOFS. The move and arithmetic family: what a completed two-operand instruction leaves in the state (40_dispatch.md
R105), and MOV, which writes its source and no flag (41_move_arith.md R120). -/

namespace Sys2Proof.Machine

/-! ### The frame of a completed two-operand instruction -/

/-- The part of the state that an instruction keeps when it changes no register outside `changed`, and neither the
stack nor the trace. -/
abbrev FrameKept (changed : Reg → Prop) (s t : State) : Prop :=
  RegsKept changed s t ∧ StackKept s t ∧ ControlKept s t ∧ t.out = s.out

theorem RegsKept.mono {c c' : Reg → Prop} {s t : State} (h : RegsKept c s t) (hc : ∀ r, c r → c' r) :
    RegsKept c' s t :=
  fun r hr => h r fun hcr => hr (hc r hcr)

/-- R105's advance is the PC rule `nextPc`. -/
theorem State.advance_pc_eq_nextPc (t : State) (pre : Byte) : (t.advance pre).get .pc = nextPc pre (t.get .pc) :=
  State.advance_pc t pre

/-- Under the two-operand modes the operand is the source value (R74). -/
theorem State.resolve_eq_sourceValue (s : State) {m : Mode} (a b : Byte) (hm : m = .regReg ∨ m = .regVal) :
    s.resolve params m a b = sourceValue s m a := by
  rcases hm with rfl | rfl <;> rfl

/-- A two-operand instruction completes in both its modes with the registers its effect leaves and PC by the PC rule;
all it changes is the register B names, where the opcode writes one, PC, and the opcode's implicit registers. -/
theorem twoOperand_completes {i : Instr} (s : State)
    (ho : i.op = .mov ∨ i.op = .add ∨ i.op = .sub ∨ i.op = .mul ∨ i.op = .cmp)
    (hm : i.mode = .regReg ∨ i.mode = .regVal) :
    ∃ t, exec i s = .next t ∧ (∀ r, r ≠ .pc → t.get r = (effect params i s).get r) ∧
      t.get .pc = nextPc (s.get .pc) ((effect params i s).get .pc) ∧
      FrameKept (fun r => (writesB i.op ∧ Names i.b r) ∨ r = .pc ∨ r ∈ implicitWrites i.op) s t := by
  have hpush : i.op ≠ .push := by rcases ho with h | h | h | h | h <;> simp [h]
  have hprint : i.op ≠ .print := by rcases ho with h | h | h | h | h <;> simp [h]
  refine ⟨_, exec_of_allowed s (modeAllowed_two ho hm), fun r hr => State.advance_get _ _ hr,
    State.advance_pc_eq_nextPc .., fun r hr => ?_, fun k => ?_, by simp [ControlKept], ?_⟩
  · simp only [not_or, not_and] at hr
    obtain ⟨hb, hpc, hi⟩ := hr
    rw [State.advance_get _ _ hpc, effect_get_of_not_written hi hb]
  · rw [State.advance_stackRead, effect_stackRead, if_neg (fun h => hpush h.1)]
  · rw [State.advance_out, effect_out, if_neg hprint]

/-- An instruction whose effect is one write through B, with no flag: MOV and MUL. -/
theorem store_completes {i : Instr} {s : State} {v : Byte} (ho : i.op = .mov ∨ i.op = .mul)
    (hm : i.mode = .regReg ∨ i.mode = .regVal) (he : effect params i s = s.writeId params i.b v) :
    ∃ t, exec i s = .next t ∧ (∀ r, Names i.b r → r ≠ .pc → t.get r = v) ∧
      t.get .pc = nextPc (s.get .pc) (if Names i.b .pc then v else s.get .pc) ∧
      FrameKept (fun r => Names i.b r ∨ r = .pc) s t := by
  obtain ⟨t, hexec, hget, hpc, hregs, hrest⟩ := twoOperand_completes s (by tauto) hm
  rw [he] at hget hpc
  have himplicit : implicitWrites i.op = [] := by rcases ho with h | h <;> rw [h] <;> rfl
  refine ⟨t, hexec, fun r hn hr => ?_, ?_, hregs.mono fun r hr => ?_, hrest⟩
  · rw [hget r hr, State.get_writeId, if_pos hn]
  · rw [hpc, State.get_writeId]
  · simp only [himplicit, List.not_mem_nil, or_false] at hr
    exact hr.imp_left And.right

/-- Settles O8: MOV's effect is the write of the source value through B. -/
theorem movCopiesItsSource : Obligations.MovCopiesItsSource := by
  intro m a b s hm
  have he : effect params (.mov m a b) s = s.writeId params b (sourceValue s m a) := by
    rw [← s.resolve_eq_sourceValue a b hm]
    rfl
  exact store_completes (.inl rfl) hm he

/-- Settles O11: MUL's effect is the write of the product's low byte through B. -/
theorem mulStoresTheLowByteOfTheProduct : Obligations.MulStoresTheLowByteOfTheProduct := by
  intro m a b s hm v1 v2
  have hsrc : s.resolve params m a b = v2 := s.resolve_eq_sourceValue a b hm
  have he : effect params (.mul m a b) s = s.writeId params b (BitVec.ofNat 8 (v1.toNat * v2.toNat)) := by
    rw [← mulResult_eq, ← hsrc]
    rfl
  obtain ⟨t, hexec, hget, hrest⟩ := store_completes (i := .mul m a b) (.inr rfl) hm he
  refine ⟨t, hexec, fun r hn hr => ?_, hrest⟩
  rw [hget r hn hr, BitVec.toNat_ofNat]

end Sys2Proof.Machine
end

section
/-! PROOFS. The move and arithmetic family: each flag as a condition on the operands' values (41_move_arith.md R121,
R122, R124, R126). -/

namespace Sys2Proof.Machine

theorem flagByte_eq_bit {f : Bool} {c : Prop} [Decidable c] (h : f = true ↔ c) : flagByte f = bit c := by
  simp only [flagByte, bit, h]

/-! ### The byte sum and difference as numbers -/

theorem toNat_sub_byte (x y : Byte) : ((x - y).toNat : Int) = ((x.toNat : Int) - y.toNat) % 256 := by
  have := x.isLt
  have := y.isLt
  rw [BitVec.toNat_sub]
  omega

theorem toInt_range (x : Byte) : -128 ≤ x.toInt ∧ x.toInt ≤ 127 := by
  have hlow := BitVec.le_toInt x
  have hhigh := BitVec.toInt_lt (x := x)
  omega

/-- The signed byte sum is the exact sum up to one turn of 256. -/
theorem toInt_add_byte (x y : Byte) : (x + y).toInt % 256 = (x.toInt + y.toInt) % 256 := by
  rw [BitVec.toInt_add]
  exact Int.bmod_emod

/-- The signed byte difference is the exact difference up to one turn of 256. -/
theorem toInt_sub_byte (x y : Byte) : (x - y).toInt % 256 = (x.toInt - y.toInt) % 256 := by
  rw [BitVec.toInt_sub]
  exact Int.bmod_emod

/-! ### The signs of R126 -/

theorem isNeg_iff (rule : OfSignRule) (v : Byte) : isNeg rule v = true ↔ v.toInt < 0 := by
  cases rule with
  | strict => simp [isNeg, s8_eq_toInt]
  | signBit => simp only [isNeg, signBit_eq, decide_eq_true_eq]

theorem isPos_strict_iff (v : Byte) : isPos .strict v = true ↔ 0 < v.toInt := by
  simp [isPos, s8_eq_toInt]

theorem isPos_signBit_iff (v : Byte) : isPos .signBit v = true ↔ 0 ≤ v.toInt := by
  simp only [isPos, signBit_eq, Bool.not_eq_true', decide_eq_false_iff_not, not_lt]

/-! ### ADD's flags (R121) -/

theorem addFlags_zf_iff (rule : OfSignRule) (x y : Byte) :
    (addFlags rule x y).zf = true ↔ (x.toNat + y.toNat) % 256 = 0 := by
  simp [addFlags, addResult_eq, ← BitVec.toNat_inj]

theorem addFlags_cf_iff (rule : OfSignRule) (x y : Byte) :
    (addFlags rule x y).cf = true ↔ 255 < x.toNat + y.toNat := by
  simp [addFlags, addWide_toNat]

theorem addFlags_of_iff (rule : OfSignRule) (x y : Byte) :
    (addFlags rule x y).of = true ↔
      (isPos rule x = true ∧ isPos rule y = true ∧ (x + y).toInt < 0) ∨
      (x.toInt < 0 ∧ y.toInt < 0 ∧ isPos rule (x + y) = true) := by
  simp [addFlags, addResult_eq, isNeg_iff, and_assoc]

/-! ### SUB's flags (R122) -/

theorem subFlags_zf_iff (rule : OfSignRule) (x y : Byte) :
    (subFlags rule x y).zf = true ↔ ((x.toNat : Int) - y.toNat) % 256 = 0 := by
  rw [← toNat_sub_byte]
  simp only [subFlags, subResult_eq, beq_iff_eq, ← BitVec.toNat_inj, Int.natCast_eq_zero]
  rfl

theorem subFlags_cf_iff (rule : OfSignRule) (x y : Byte) : (subFlags rule x y).cf = true ↔ x.toNat < y.toNat := by
  simp [subFlags]

theorem subFlags_of_iff (rule : OfSignRule) (x y : Byte) :
    (subFlags rule x y).of = true ↔
      (isPos rule x = true ∧ y.toInt < 0 ∧ (x - y).toInt < 0) ∨
      (x.toInt < 0 ∧ isPos rule y = true ∧ isPos rule (x - y) = true) := by
  simp [subFlags, subResult_eq, isNeg_iff, and_assoc]

/-! ### CMP's flags (R124) -/

theorem cmpDiff_eq (x y : Byte) : cmpDiff x y = x.toInt - y.toInt := by
  simp only [cmpDiff, s8_eq_toInt]

theorem cmpFlags_zf_iff (x y : Byte) : (cmpFlags x y).zf = true ↔ x.toInt = y.toInt := by
  simp only [cmpFlags, cmpDiff_eq, decide_eq_true_eq]
  omega

theorem cmpFlags_cf_iff (x y : Byte) : (cmpFlags x y).cf = true ↔ y.toInt < x.toInt := by
  simp only [cmpFlags, cmpDiff_eq, decide_eq_true_eq]
  omega

theorem cmpFlags_of_iff (x y : Byte) : (cmpFlags x y).of = true ↔ x.toInt < y.toInt := by
  simp only [cmpFlags, cmpDiff_eq, decide_eq_true_eq]
  omega

/-! ### The two sign rules compared (R126, 90 C4) -/

/-- The sign rule plays a part in ADD's OF alone. -/
theorem addFlags_eq_iff (rule rule' : OfSignRule) (x y : Byte) :
    addFlags rule x y = addFlags rule' x y ↔
      ((addFlags rule x y).of = true ↔ (addFlags rule' x y).of = true) := by
  rw [← Bool.eq_iff_iff]
  simp [addFlags]

/-- The sign rule plays a part in SUB's OF alone. -/
theorem subFlags_eq_iff (rule rule' : OfSignRule) (x y : Byte) :
    subFlags rule x y = subFlags rule' x y ↔
      ((subFlags rule x y).of = true ↔ (subFlags rule' x y).of = true) := by
  rw [← Bool.eq_iff_iff]
  simp [subFlags]

theorem addFlags_strict_ne_signBit_iff (x y : Byte) :
    addFlags .strict x y ≠ addFlags .signBit x y ↔ x = 0x80#8 ∧ y = 0x80#8 := by
  have hsum := toInt_add_byte x y
  have hx := toInt_range x
  have hy := toInt_range y
  have hxy := toInt_range (x + y)
  simp only [ne_eq, addFlags_eq_iff, addFlags_of_iff, isPos_strict_iff, isPos_signBit_iff, ← BitVec.toInt_inj,
    show (0x80#8).toInt = -128 from rfl]
  omega

theorem subFlags_strict_ne_signBit_iff (x y : Byte) :
    subFlags .strict x y ≠ subFlags .signBit x y ↔ x = 0x00#8 ∧ y = 0x80#8 := by
  have hdiff := toInt_sub_byte x y
  have hx := toInt_range x
  have hy := toInt_range y
  have hxy := toInt_range (x - y)
  simp only [ne_eq, subFlags_eq_iff, subFlags_of_iff, isPos_strict_iff, isPos_signBit_iff, ← BitVec.toInt_inj,
    show (0x80#8).toInt = -128 from rfl, show (0x00#8).toInt = 0 from rfl]
  omega

/-- Settles O24: only OF sees the sign rule, and a zero counted as positive changes it on one pair each. -/
theorem signRulesDifferOnOnePairEach : Obligations.SignRulesDifferOnOnePairEach :=
  fun x y => ⟨addFlags_strict_ne_signBit_iff x y, subFlags_strict_ne_signBit_iff x y⟩

theorem addFlags_signBit_of_iff_overflow (x y : Byte) :
    (addFlags .signBit x y).of = true ↔ x.toInt + y.toInt < -128 ∨ 127 < x.toInt + y.toInt := by
  have hsum := toInt_add_byte x y
  have hx := toInt_range x
  have hy := toInt_range y
  have hxy := toInt_range (x + y)
  simp only [addFlags_of_iff, isPos_signBit_iff]
  omega

theorem subFlags_signBit_of_iff_overflow (x y : Byte) :
    (subFlags .signBit x y).of = true ↔ x.toInt - y.toInt < -128 ∨ 127 < x.toInt - y.toInt := by
  have hdiff := toInt_sub_byte x y
  have hx := toInt_range x
  have hy := toInt_range y
  have hxy := toInt_range (x - y)
  simp only [subFlags_of_iff, isPos_signBit_iff]
  omega

/-- Settles O25: the sign of the truncated result is wrong exactly when the exact one is no signed byte. -/
theorem signBitRuleIsConventionalOverflow : Obligations.SignBitRuleIsConventionalOverflow :=
  fun x y => ⟨addFlags_signBit_of_iff_overflow x y, subFlags_signBit_of_iff_overflow x y⟩

end Sys2Proof.Machine
end

section
/-! PROOFS. The move and arithmetic family: ADD, SUB and CMP, which write the three flags (41_move_arith.md R121, R122,
R124, R127). -/

namespace Sys2Proof.Machine

/-- An instruction whose effect is one write through B and then the flag write (R127): ADD and SUB. -/
theorem storeThenSetFlags_completes {i : Instr} {s : State} {v : Byte} {f : FlagBits} (ho : i.op = .add ∨ i.op = .sub)
    (hm : i.mode = .regReg ∨ i.mode = .regVal) (he : effect params i s = (s.writeId params i.b v).setFlags f) :
    ∃ t, exec i s = .next t ∧
      (∀ r, Names i.b r → r ≠ .pc → r ≠ .zf → r ≠ .cf → r ≠ .of → t.get r = v) ∧
      t.get .zf = flagByte f.zf ∧ t.get .cf = flagByte f.cf ∧ t.get .of = flagByte f.of ∧
      t.get .pc = nextPc (s.get .pc) (if Names i.b .pc then v else s.get .pc) ∧
      FrameKept (fun r => Names i.b r ∨ r = .pc ∨ r = .zf ∨ r = .cf ∨ r = .of) s t := by
  obtain ⟨t, hexec, hget, hpc, hregs, hrest⟩ := twoOperand_completes s (by tauto) hm
  rw [he] at hget hpc
  have himplicit : implicitWrites i.op = [.zf, .cf, .of] := by rcases ho with h | h <;> rw [h] <;> rfl
  refine ⟨t, hexec, fun r hn hr hz hc hv => ?_, hget .zf nofun, hget .cf nofun, hget .of nofun, ?_,
    hregs.mono fun r hr => ?_, hrest⟩
  · rw [hget r hr, State.get_setFlags _ _ hz hc hv, State.get_writeId, if_pos hn]
  · rw [hpc, State.get_setFlags _ _ (r := .pc) nofun nofun nofun, State.get_writeId]
  · simp only [himplicit, List.mem_cons, List.not_mem_nil, or_false] at hr
    exact hr.imp_left And.right

/-- Settles O9: ADD's effect is the write of the byte sum and then its flags under the Strict rule. -/
theorem addStoresTheSumAndItsFlags : Obligations.AddStoresTheSumAndItsFlags := by
  intro m a b s hm v1 v2
  have hsrc : s.resolve params m a b = v2 := s.resolve_eq_sourceValue a b hm
  have he : effect params (.add m a b) s = (s.writeId params b (v1 + v2)).setFlags (addFlags .strict v1 v2) := by
    rw [← addResult_eq, ← hsrc]
    rfl
  obtain ⟨t, hexec, hget, hz, hc, hv, hrest⟩ := storeThenSetFlags_completes (i := .add m a b) (.inl rfl) hm he
  refine ⟨t, hexec, fun r hn hr hrz hrc hrv => ?_, hz.trans (flagByte_eq_bit (addFlags_zf_iff ..)),
    hc.trans (flagByte_eq_bit (addFlags_cf_iff ..)), hv.trans (flagByte_eq_bit ?_), hrest⟩
  · rw [hget r hn hr hrz hrc hrv, BitVec.toNat_add]
  · simp only [addFlags_of_iff, isPos_strict_iff]

/-- Settles O10: SUB's effect is the write of the byte difference and then its flags under the Strict rule. -/
theorem subStoresTheDifferenceAndItsFlags : Obligations.SubStoresTheDifferenceAndItsFlags := by
  intro m a b s hm v1 v2
  have hsrc : s.resolve params m a b = v2 := s.resolve_eq_sourceValue a b hm
  have he : effect params (.sub m a b) s = (s.writeId params b (v1 - v2)).setFlags (subFlags .strict v1 v2) := by
    rw [← subResult_eq, ← hsrc]
    rfl
  obtain ⟨t, hexec, hget, hz, hc, hv, hrest⟩ := storeThenSetFlags_completes (i := .sub m a b) (.inr rfl) hm he
  refine ⟨t, hexec, fun r hn hr hrz hrc hrv => ?_, hz.trans (flagByte_eq_bit (subFlags_zf_iff ..)),
    hc.trans (flagByte_eq_bit (subFlags_cf_iff ..)), hv.trans (flagByte_eq_bit ?_), hrest⟩
  · rw [hget r hn hr hrz hrc hrv, toNat_sub_byte]
  · simp only [subFlags_of_iff, isPos_strict_iff]

/-- Settles O12: CMP's effect is the flag write alone, so PC still holds the latched value and advances by one. -/
theorem cmpOrdersTheSignedOperands : Obligations.CmpOrdersTheSignedOperands := by
  intro m a b s hm v1 v2
  have hsrc : s.resolve params m a b = v2 := s.resolve_eq_sourceValue a b hm
  have he : effect params (.cmp m a b) s = s.setFlags (cmpFlags v1 v2) := by
    rw [← hsrc]
    rfl
  obtain ⟨t, hexec, hget, hpc, hregs, hrest⟩ := twoOperand_completes (i := .cmp m a b) s (by simp [Instr.op]) hm
  rw [he] at hget hpc
  refine ⟨t, hexec, (hget .zf nofun).trans (flagByte_eq_bit (cmpFlags_zf_iff ..)),
    (hget .cf nofun).trans (flagByte_eq_bit (cmpFlags_cf_iff ..)),
    (hget .of nofun).trans (flagByte_eq_bit (cmpFlags_of_iff ..)), ?_, hregs.mono fun r hr => ?_, hrest⟩
  · rw [hpc, State.get_setFlags _ _ (r := .pc) nofun nofun nofun]
    exact if_pos rfl
  · simpa [writesB, implicitWrites, Instr.op] using hr

end Sys2Proof.Machine
end

section
/-! PROOFS. The stack family: what a completed legal form leaves in the state (40_dispatch.md R105), and PUSH and POP
(42_stack.md R140 to R142). -/

namespace Sys2Proof.Machine

/-! ### The frame of a completed legal form -/

/-- A legal form completes with the registers its effect leaves and PC by the PC rule; all it changes is the register B
names, where the opcode writes one, PC, the opcode's implicit registers, PUSH's stack byte and PRINT's trace. -/
theorem legalForm_completes {i : Instr} (s : State) (hm : i.modeAllowed = true) :
    ∃ t, exec i s = .next t ∧ (∀ r, r ≠ .pc → t.get r = (effect params i s).get r) ∧
      t.get .pc = nextPc (s.get .pc) ((effect params i s).get .pc) ∧
      RegsKept (fun r => (writesB i.op ∧ Names i.b r) ∨ r = .pc ∨ r ∈ implicitWrites i.op) s t ∧
      (∀ k, t.stackRead k =
        if i.op = .push ∧ k = s.get .sp then s.resolve params i.mode i.a i.b else s.stackRead k) ∧
      ControlKept s t ∧
      t.out = if i.op = .print then s.out ++ [s.resolve params i.mode i.a i.b] else s.out := by
  refine ⟨_, exec_of_allowed s hm, fun r hr => State.advance_get _ _ hr, State.advance_pc_eq_nextPc ..,
    fun r hr => ?_, fun k => ?_, by simp [ControlKept], ?_⟩
  · simp only [not_or, not_and] at hr
    obtain ⟨hb, hpc, hi⟩ := hr
    rw [State.advance_get _ _ hpc, effect_get_of_not_written hi hb]
  · rw [State.advance_stackRead, effect_stackRead]
  · rw [State.advance_out, effect_out]

/-- Where the effect leaves the latched value in PC, PC advances by one instruction. -/
theorem nextPc_self (pre : Byte) : nextPc pre pre = pre + 1#8 := if_pos rfl

/-- Under the one-operand modes the operand is the value of B (R74). -/
theorem State.resolve_eq_operandValue (s : State) {m : Mode} (a b : Byte) (hm : m = .regOnly ∨ m = .valOnly) :
    s.resolve params m a b = operandValue s m b := by
  rcases hm with rfl | rfl <;> rfl

/-! ### PUSH (R140) -/

theorem pushEffect_get (p : Params) (m : Mode) (a b : Byte) (s : State) (r : Reg) :
    (pushEffect p m a b s).get r = if r = .sp then s.get .sp + 1#8 else s.get r := by
  rw [pushEffect, State.get_set, State.get_stackWrite]

/-- Settles O13: PUSH's effect writes the operand at the old SP, and of the registers SP alone; so PC still holds the
latched value and advances by one. -/
theorem pushWritesAtSpThenIncrements : Obligations.PushWritesAtSpThenIncrements := by
  intro m a b s hm
  obtain ⟨t, hexec, hget, hpc, hregs, hstack, hcontrol, hout⟩ :=
    legalForm_completes (i := .push m a b) s (modeAllowed_one (.inl rfl) hm)
  have heffect : ∀ r, (effect params (.push m a b) s).get r = if r = .sp then s.get .sp + 1#8 else s.get r :=
    pushEffect_get params m a b s
  refine ⟨t, hexec, ?_, fun k hk => ?_, ?_, ?_, hregs.mono fun r hr => ?_, hcontrol, hout⟩
  · rw [hstack, if_pos ⟨rfl, rfl⟩]
    exact s.resolve_eq_operandValue a b hm
  · rw [hstack, if_neg fun h => hk h.2]
  · rw [hget .sp nofun, heffect, if_pos rfl]
  · rw [hpc, heffect, if_neg nofun, nextPc_self]
  · simpa [writesB, implicitWrites, Instr.op, or_comm] using hr

/-! ### POP (R141) -/

/-- The write through B comes after the decrement, so it is what SP holds where B names SP. -/
theorem popEffect_get (p : Params) (b : Byte) (s : State) (r : Reg) :
    (popEffect p b s).get r =
      if namedReg p b = some r then s.stackRead (s.get .sp - 1#8)
      else if r = .sp then s.get .sp - 1#8 else s.get r := by
  rw [popEffect, State.get_writeId, State.get_set]

/-- Settles O14: POP's effect writes the decremented SP and then the register B names, and no stack byte. -/
theorem popDecrementsThenReads : Obligations.PopDecrementsThenReads := by
  intro a b s
  obtain ⟨t, hexec, hget, hpc, hregs, hstack, hcontrol, hout⟩ :=
    legalForm_completes (i := .pop .regOnly a b) s rfl
  have heffect : ∀ r, (effect params (.pop .regOnly a b) s).get r =
      if Names b r then s.stackRead (s.get .sp - 1#8) else if r = .sp then s.get .sp - 1#8 else s.get r :=
    popEffect_get params b s
  refine ⟨t, hexec, fun r hn hr => ?_, fun hn => ?_, ?_, hregs.mono fun r hr => ?_, hstack, hcontrol, hout⟩
  · rw [hget r hr, heffect, if_pos hn]
  · rw [hget .sp nofun, heffect, if_neg hn, if_pos rfl]
  · rw [hpc, heffect, if_neg (c := Reg.pc = .sp) nofun]
  · simpa [writesB, implicitWrites, Instr.op, Instr.b, or_comm] using hr

/-! ### PUSH then POP (R142) -/

/-- Settles O21: POP reads at the decremented SP, which is the SP that PUSH wrote at before it incremented it. -/
theorem pushThenPopReturnsThePushedValue : Obligations.PushThenPopReturnsThePushedValue := by
  intro m a b a' b' s hm hsp
  obtain ⟨t, hpush, hwritten, -, htsp, -⟩ := pushWritesAtSpThenIncrements m a b s hm
  obtain ⟨u, hpop, hread, husp, -, -, hkept, -⟩ := popDecrementsThenReads a' b' t
  have hback : t.get .sp - 1#8 = s.get .sp := by rw [htsp, BitVec.add_sub_cancel]
  rw [hback] at hread husp
  exact ⟨t, u, hpush, hpop, husp hsp, fun r hn hr => (hread r hn hr).trans hwritten, (hkept _).trans hwritten⟩

end Sys2Proof.Machine
end

section
/-! PROOFS. The control family: JMP, BE and BNE, whose effects write PC alone (43_control.md R150 to R154). -/

namespace Sys2Proof.Machine

/-- JMP, BE and BNE complete with PC by the PC rule, and PC is all they change. -/
theorem controlTransfer_completes {i : Instr} (s : State) (ho : i.op = .jmp ∨ i.op = .be ∨ i.op = .bne)
    (hm : i.mode = .regOnly ∨ i.mode = .valOnly) :
    ∃ t, exec i s = .next t ∧ t.get .pc = nextPc (s.get .pc) ((effect params i s).get .pc) ∧
      FrameKept (fun r => r = .pc) s t := by
  obtain ⟨t, hexec, -, hpc, hregs, hstack, hcontrol, hout⟩ := legalForm_completes s (modeAllowed_one (by tauto) hm)
  have hpush : i.op ≠ .push := by rcases ho with h | h | h <;> simp [h]
  have hprint : i.op ≠ .print := by rcases ho with h | h | h <;> simp [h]
  refine ⟨t, hexec, hpc, hregs.mono fun r hr => ?_, fun k => ?_, hcontrol, ?_⟩
  · rcases ho with h | h | h <;> simpa [h, writesB, implicitWrites] using hr
  · rw [hstack, if_neg fun h => hpush h.1]
  · rw [hout, if_neg hprint]

/-! ### What the effects leave in PC -/

theorem effect_jmp_pc (p : Params) (m : Mode) (a b : Byte) (s : State) :
    (effect p (.jmp m a b) s).get .pc = s.resolve p m a b :=
  s.get_set_same .pc _

theorem effect_be_pc (p : Params) (m : Mode) (a b : Byte) (s : State) :
    (effect p (.be m a b) s).get .pc = if s.get .zf = 1#8 then s.resolve p m a b else s.get .pc := by
  rw [effect, beEffect, apply_ite (State.get · .pc), State.get_set_same]

theorem effect_bne_pc (p : Params) (m : Mode) (a b : Byte) (s : State) :
    (effect p (.bne m a b) s).get .pc = if s.get .zf ≠ 1#8 then s.resolve p m a b else s.get .pc := by
  rw [effect, bneEffect, apply_ite (State.get · .pc), State.get_set_same]

/-! ### JMP, BE and BNE -/

/-- Settles O15: JMP's effect leaves its target in PC, so the PC rule meets the target, its own index included. -/
theorem jmpGoesToItsTarget : Obligations.JmpGoesToItsTarget := by
  intro m a b s hm
  obtain ⟨t, hexec, hpc, hframe⟩ := controlTransfer_completes (i := .jmp m a b) s (.inl rfl) hm
  rw [effect_jmp_pc, s.resolve_eq_operandValue a b hm] at hpc
  exact ⟨t, hexec, hpc, hframe⟩

/-- Settles O16: where ZF is not 1, BE's effect leaves the latched value in PC, which then advances by one. -/
theorem beBranchesWhenZfIsOne : Obligations.BeBranchesWhenZfIsOne := by
  intro m a b s hm
  obtain ⟨t, hexec, hpc, hframe⟩ := controlTransfer_completes (i := .be m a b) s (.inr (.inl rfl)) hm
  rw [effect_be_pc, s.resolve_eq_operandValue a b hm] at hpc
  refine ⟨t, hexec, fun htaken => ?_, fun hnot => ?_, hframe⟩
  · rw [hpc, if_pos htaken]
  · rw [hpc, if_neg hnot, nextPc_self]

/-- Settles O17: where ZF is 1, BNE's effect leaves the latched value in PC, which then advances by one. -/
theorem bneBranchesWhenZfIsNotOne : Obligations.BneBranchesWhenZfIsNotOne := by
  intro m a b s hm
  obtain ⟨t, hexec, hpc, hframe⟩ := controlTransfer_completes (i := .bne m a b) s (.inr (.inr rfl)) hm
  rw [effect_bne_pc, s.resolve_eq_operandValue a b hm] at hpc
  refine ⟨t, hexec, fun htaken => ?_, fun hone => ?_, hframe⟩
  · rw [hpc, if_pos htaken]
  · rw [hpc, if_neg (not_not_intro hone), nextPc_self]

end Sys2Proof.Machine
end

section
/-! PROOFS. The output family: PRINT (44_output.md R160), the one writer of the output trace (R162) and with it of the
output transaction (R219), and the line the host shows for a value (R161). -/

namespace Sys2Proof.Machine

/-! ### PRINT (R160) -/

/-- Settles O18: PRINT's effect writes the trace and no register, so PC still holds the latched value and advances by
one. -/
theorem printAppendsItsOperand : Obligations.PrintAppendsItsOperand := by
  intro m a b s hm
  obtain ⟨t, hexec, -, hpc, hregs, hstack, hcontrol, hout⟩ :=
    legalForm_completes (i := .print m a b) s (modeAllowed_one (by simp [Instr.op]) hm)
  have heffect : (effect params (.print m a b) s).get .pc = s.get .pc := State.get_emit ..
  refine ⟨t, hexec, ?_, ?_, hregs.mono fun r hr => ?_, hstack, hcontrol⟩
  · rw [← s.resolve_eq_operandValue a b hm]
    exact hout
  · rw [hpc, heffect, nextPc_self]
  · simpa [writesB, implicitWrites, Instr.op] using hr

/-! ### The trace's one writer (R162) and the output transaction (R219) -/

theorem outTransaction_of_out_eq {s t : State} (h : t.out = s.out) : outTransaction s t = none := by
  simp [outTransaction, h]

theorem outTransaction_of_out_append {s t : State} {v : Byte} (h : t.out = s.out ++ [v]) :
    outTransaction s t = some v := by
  simp [outTransaction, h]

theorem eq_print_of_op {i : Instr} (h : i.op = .print) : i = .print i.mode i.a i.b :=
  match i, h with
  | .print _ _ _, _ => rfl

/-- The one-operand opcodes allow the one-operand modes alone (R79). -/
theorem mode_of_oneOperand_allowed {i : Instr}
    (ho : i.op = .push ∨ i.op = .jmp ∨ i.op = .be ∨ i.op = .bne ∨ i.op = .print) (hm : i.modeAllowed = true) :
    i.mode = .regOnly ∨ i.mode = .valOnly := by
  unfold Instr.modeAllowed at hm
  cases hmode : i.mode with
  | regReg | regVal => rcases ho with h | h | h | h | h <;> rw [h, hmode] at hm <;> cases hm
  | regOnly => exact .inl rfl
  | valOnly => exact .inr rfl

/-- Settles O37: every other way a step can end keeps the trace, and among the effects only PRINT's writes it. -/
theorem onlyPrintAppendsToTheTrace : Obligations.OnlyPrintAppendsToTheTrace := by
  intro s t h
  rw [step_eq_stepUnder] at h
  rcases stepUnder_ends_or_completes h with ⟨st, d, rfl⟩ | ⟨w, i, hf, hd, hm, rfl⟩
  · exact .inl ⟨rfl, outTransaction_of_out_eq rfl⟩
  · have hout := (State.advance_out _ (s.get .pc)).trans (effect_out params i s)
    by_cases hop : i.op = .print
    · have hmode := mode_of_oneOperand_allowed (by simp [hop]) hm
      rw [if_pos hop, s.resolve_eq_operandValue _ _ hmode] at hout
      obtain ⟨rest, hrest⟩ := decodeBytes_of_fetch? hf (hd.trans (congrArg Decoded.known (eq_print_of_op hop)))
      exact .inr ⟨i.mode, i.a, i.b, rest, hmode, hrest, hout, outTransaction_of_out_append hout⟩
    · rw [if_neg hop] at hout
      exact .inl ⟨hout, outTransaction_of_out_eq hout⟩

/-! ### The rendered line, by the number of its digits (R161) -/

theorem renderLine_of_lt_ten {v : Byte} (h : v.toNat < 10) : renderLine v = [asciiDigit v.toNat, 0x0A#8] := by
  have hhundreds : ¬ 100 ≤ v.toNat := by omega
  have htens : ¬ 10 ≤ v.toNat := by omega
  rw [renderLine, if_neg hhundreds, if_neg htens, Nat.mod_eq_of_lt h]
  rfl

theorem renderLine_of_lt_hundred {v : Byte} (hlow : 10 ≤ v.toNat) (h : v.toNat < 100) :
    renderLine v = [asciiDigit (v.toNat / 10), asciiDigit (v.toNat % 10), 0x0A#8] := by
  have hhundreds : ¬ 100 ≤ v.toNat := by omega
  have htens : v.toNat / 10 < 10 := by omega
  rw [renderLine, if_neg hhundreds, if_pos hlow, Nat.mod_eq_of_lt htens]
  rfl

theorem renderLine_of_hundred_le {v : Byte} (h : 100 ≤ v.toNat) :
    renderLine v =
      [asciiDigit (v.toNat / 100), asciiDigit (v.toNat / 10 % 10), asciiDigit (v.toNat % 10), 0x0A#8] := by
  have htens : 10 ≤ v.toNat := by omega
  rw [renderLine, if_pos h, if_pos htens]
  rfl

/-- Settles O45: a byte has one, two or three decimal digits, and in the last two cases the first is not zero. -/
theorem renderedLineIsTheShortestDecimal : Obligations.RenderedLineIsTheShortestDecimal := by
  intro v
  have hones : v.toNat % 10 < 10 := Nat.mod_lt _ (by decide)
  rcases Nat.lt_or_ge v.toNat 10 with hone | hten
  · exact ⟨[v.toNat], renderLine_of_lt_ten hone, by simpa using hone, by simp, by simp, by simp⟩
  rcases Nat.lt_or_ge v.toNat 100 with htwo | hthree
  · have htens : v.toNat / 10 < 10 := by omega
    have hlead : v.toNat / 10 ≠ 0 := by omega
    have hvalue : v.toNat % 10 + 10 * (v.toNat / 10) = v.toNat := Nat.mod_add_div ..
    exact ⟨[v.toNat / 10, v.toNat % 10], renderLine_of_lt_hundred hten htwo, by simp [htens, hones], by simp,
      by simpa using hlead, by simpa [Nat.ofDigits_cons] using hvalue⟩
  · have htens : v.toNat / 10 % 10 < 10 := Nat.mod_lt _ (by decide)
    have hhundreds : v.toNat / 100 < 10 := by
      have := v.isLt
      omega
    have hlead : v.toNat / 100 ≠ 0 := by omega
    have hvalue : v.toNat % 10 + 10 * (v.toNat / 10 % 10 + 10 * (v.toNat / 100)) = v.toNat := by omega
    exact ⟨[v.toNat / 100, v.toNat / 10 % 10, v.toNat % 10], renderLine_of_hundred_le hthree,
      by simp [hhundreds, htens, hones], by simp, by simpa using hlead, by simpa [Nat.ofDigits_cons] using hvalue⟩

end Sys2Proof.Machine
end

section
/-! PROOFS. The exceptions family: how a run enters an error state (60_exceptions.md R208), what the host then reads of
it (R204, R212, R219), and the load's verdict on an image (R203; 70_reset_and_hazards.md R236, R237). -/

namespace Sys2Proof.Machine

/-! ### The entry into an error state (R208) -/

/-- A step into HALT_BADOP or ABORT_MODE is a raise on the state it left, with a record of that state's PC: past the
last word the run ends normally, and a completed instruction leaves it RUNNING. -/
theorem stepUnder_eq_raise_of_endedAbnormally {p : Params} {s t : State} (h : stepUnder p s = .next t)
    (he : t.EndedAbnormally) : ∃ o d, t = s.raise o d ∧ t.diagPc = some (s.get .pc) := by
  obtain ⟨hrun, ⟨-, rfl⟩ | ⟨w, -, ⟨opc, -, rfl⟩ | ⟨i, -, ⟨-, rfl⟩ | ⟨-, id, -, rfl⟩ | ⟨-, -, rfl⟩⟩⟩⟩ :=
    stepUnder_next_cases h
  · simp [State.EndedAbnormally] at he
  · exact ⟨.haltBadop, .unknownOpcode (s.get .pc) opc, rfl, rfl⟩
  · exact ⟨.abortMode, .illegalMode (s.get .pc) i.op i.mode, rfl, rfl⟩
  · exact ⟨.abortMode, .badRegister (s.get .pc) i.op id, rfl, rfl⟩
  · simp [State.EndedAbnormally, hrun] at he

/-- Settles O35: an abnormal end is a raise, and a raise writes the run status and the record alone. -/
theorem errorEntryIsPrecise : Obligations.ErrorEntryIsPrecise := by
  intro s t h he
  rw [step_eq_stepUnder] at h
  obtain ⟨o, d, rfl, hpc⟩ := stepUnder_eq_raise_of_endedAbnormally h he
  exact ⟨s.raise_regs o d, fun _ => rfl, s.raise_code o d, s.raise_out o d, d, s.raise_diag o d, hpc⟩

/-! ### What a sound status says of an error state (R40) -/

theorem StatusSound.of_haltBadop {p : Params} {s : State} (h : StatusSound p s) (hs : s.status = .haltBadop) :
    ∃ w opc, s.fetch? = some w ∧ decodeUnder p.opcodeOf w = .unknown opc ∧
      s.diag = some (.unknownOpcode (s.get .pc) opc) := by
  simpa only [StatusSound, hs] using h

/-- Under the Ignore policy an illegal mode is the only cause of an abort. -/
theorem StatusSound.of_abortMode {p : Params} {s : State} (h : StatusSound p s) (hp : p.badRegPolicy = .ignore)
    (hs : s.status = .abortMode) :
    ∃ w i, s.fetch? = some w ∧ decodeUnder p.opcodeOf w = .known i ∧
      s.diag = some (.illegalMode (s.get .pc) i.op i.mode) := by
  simp only [StatusSound, hs] at h
  obtain ⟨w, i, hf, hd, ⟨-, hdiag⟩ | ⟨-, hfault, -⟩⟩ := h
  · exact ⟨w, i, hf, hd, hdiag⟩
  · rw [hp] at hfault
    cases hfault

/-! ### The diagnostic signals of an ended run (R219) -/

theorem State.diagOpcode_of_endedAbnormally {s : State} {w : Word} (he : s.EndedAbnormally)
    (hf : s.fetch? = some w) : s.diagOpcode = some (opcodeField w) := by
  rcases he with hs | hs <;> simp only [State.diagOpcode, hs, hf, Option.map_some]

theorem State.diagMode_of_haltBadop {s : State} (hs : s.status = .haltBadop) : s.diagMode = none := by
  simp only [State.diagMode, hs]

theorem State.diagMode_of_abortMode {s : State} {w : Word} (hs : s.status = .abortMode) (hf : s.fetch? = some w) :
    s.diagMode = some (modeField w) := by
  simp only [State.diagMode, hs, hf, Option.map_some]

theorem State.diagPc_and_diagReg_of_unknownOpcode {s : State} {pc : Byte} {opc : BitVec 6}
    (h : s.diag = some (.unknownOpcode pc opc)) : s.diagPc = some pc ∧ s.diagReg = none := by
  simp only [State.diagPc, State.diagReg, h, and_self]

theorem State.diagPc_and_diagReg_of_illegalMode {s : State} {pc : Byte} {op : Opcode} {m : Mode}
    (h : s.diag = some (.illegalMode pc op m)) : s.diagPc = some pc ∧ s.diagReg = none := by
  simp only [State.diagPc, State.diagReg, h, and_self]

/-- Settles O44: the invariant keeps the offending word under PC, and the decoder read the record's fields from that
word. -/
theorem diagnosticSignalsAgreeWithTheRecord : Obligations.DiagnosticSignalsAgreeWithTheRecord := by
  refine fun s hinv => ⟨fun hs => ?_, fun hs => ?_⟩
  · obtain ⟨w, opc, hf, hd, hdiag⟩ := hinv.status_sound.of_haltBadop hs
    obtain ⟨rfl, -⟩ := decodeUnder_eq_unknown_iff.mp hd
    obtain ⟨hpc, hreg⟩ := State.diagPc_and_diagReg_of_unknownOpcode hdiag
    exact ⟨opcodeField w, hdiag, hpc, State.diagOpcode_of_endedAbnormally (.inl hs) hf,
      State.diagMode_of_haltBadop hs, hreg⟩
  · obtain ⟨w, i, hf, hd, hdiag⟩ := hinv.status_sound.of_abortMode params_badRegPolicy hs
    obtain ⟨hop, hmode, -, -⟩ := (decodeUnder_eq_known_iff params_wf.opcodeOf_inj).mp hd
    obtain ⟨hpc, hreg⟩ := State.diagPc_and_diagReg_of_illegalMode hdiag
    refine ⟨i.op, i.mode, hdiag, hpc, ?_, ?_, hreg⟩
    · rw [State.diagOpcode_of_endedAbnormally (.inr hs) hf, hop, params_opcodeOf]
    · rw [State.diagMode_of_abortMode hs hf, hmode]

/-! ### The load (R203, R236, R237) -/

theorem imageAccepted_iff {image : List Byte} : imageAccepted image = true ↔ image.length % 4 = 0 := by
  simp [imageAccepted]

theorem State.load_status_of_refused {image : List Byte} (h : image.length % 4 ≠ 0) :
    (State.load (some image)).status = .loadRejected := by
  rw [State.load, if_neg (mt imageAccepted_iff.mp h)]

theorem step_of_loadRejected {s : State} (hs : s.status = .loadRejected) :
    step s = .fault (.noStep .loadRejected) := by
  rw [step_of_not_running (by simp [hs]), hs]

/-- Settles O39: the load refuses what could not be read and what is no whole number of words, and LOAD_REJECTED is
terminal. -/
theorem loadAcceptsExactlyWholeWords : Obligations.LoadAcceptsExactlyWholeWords := by
  refine ⟨⟨rfl, step_of_loadRejected rfl⟩, fun image h => ?_, fun image h => ?_⟩
  · have hs := State.load_status_of_refused h
    exact ⟨hs, step_of_loadRejected hs⟩
  · exact State.load_of_accepted (imageAccepted_iff.mpr h)

/-! ### Status codes and exit statuses (R204, R212, R219) -/

/-- Settles O43: one row of each table per status. -/
theorem statusCodesAndExitStatuses : Obligations.StatusCodesAndExitStatuses :=
  ⟨⟨rfl, rfl, rfl, rfl, rfl⟩, fun _ => ⟨rfl, rfl, rfl, rfl, rfl⟩, rfl, rfl⟩

end Sys2Proof.Machine
end
